-- ==== Sys2Proof/Word.lean ====
section
/-! DEFINITION. The word types of BAG-CORE: the 32-bit host word (00_scope.md R12), the byte of a byte string (R14), the
256-bit raw integer of DIN and DOUT (10_state.md R33, R34) and the 12-bit offset into the 4096-byte window (20_memory.md R50). -/

namespace Sys2Proof

/-- One 32-bit host bus word, also a command word (00_scope.md R12). -/
abbrev Word := BitVec 32

/-- One byte of a byte string (00_scope.md R14). -/
abbrev Byte := BitVec 8

/-- A byte string, byte 0 first (00_scope.md R14). -/
abbrev ByteString := List Byte

/-- An unsigned 256-bit integer, as DIN, DOUT and the constant windows hold it (10_state.md R33, R34, R36). -/
abbrev Raw256 := BitVec 256

/-- An offset into the host register window of 4096 bytes (20_memory.md R50). -/
abbrev Offset := BitVec 12

end Sys2Proof
end

