-- ==== Sys2Proof/Config.lean ====
section
/-! DEFINITION. What is fixed for the machine: the parameters of 00_scope.md R10, and the OPEN parameters of 00_scope.md R13,
20_memory.md R50 and 42_point_serializer.md R164 as opaque constants, of which nothing can be proved but their types. -/

namespace Sys2Proof.Config

/-- The field modulus P = 2^256 - 2^32 - 977 (00_scope.md R10; the formula is the normative statement; log 7). -/
def P : Nat := 2 ^ 256 - 2 ^ 32 - 977

/-- The curve constant b of y² = x³ + b (00_scope.md R10). -/
def curveB : Nat := 7

/-- The X coordinate of the generator (00_scope.md R10). -/
def Gx : Nat := 0x79BE667EF9DCBBAC55A06295CE870B07029BFCDB2DCE28D959F2815B16F81798

/-- The Y coordinate of the generator (00_scope.md R10). -/
def Gy : Nat := 0x483ADA7726A3C4655DA4FBFC0E1108A8FD17B448A68554199C47D08FFB10D4B8

/-- The network byte MAINNET (00_scope.md R10, 43_address_derivation.md R174). -/
def mainnetByte : Byte := 0x00

/-- The network byte TESTNET (00_scope.md R10, 43_address_derivation.md R174). -/
def testnetByte : Byte := 0x6F

/-- The attached SHA-256 unit: an OPEN total, stateless function (00_scope.md R13, 60_exceptions.md R232). Log 5. -/
opaque sha256 : ByteString → Vector Byte 32

/-- The attached RIPEMD-160 unit: an OPEN total, stateless function (00_scope.md R13, 60_exceptions.md R232). Log 5. -/
opaque ripemd160 : ByteString → Vector Byte 20

/-- The host's Base58 encoder: an OPEN function, host side only (00_scope.md R13, 43_address_derivation.md R177). Log 5. -/
opaque base58 : ByteString → String

/-- The letter case of the host's hex text (42_point_serializer.md R164). -/
inductive HexCase where
  | lower
  | upper
  deriving DecidableEq, Repr, Inhabited

/-- HEX_CASE, an OPEN parameter of the host side (42_point_serializer.md R164). Log 14. -/
opaque hexCase : HexCase

/-- The 4096-byte page at which the platform places the window (20_memory.md R50). Log 6. -/
opaque basePage : Nat

/-- BASE, the window's host address: an OPEN parameter, a multiple of 4096 (20_memory.md R50). -/
def base : Nat := 4096 * basePage

end Sys2Proof.Config
end

