-- ==== Sys2Proof/Syntax.lean ====
section
/-! DEFINITION. The commands of BAG-CORE as syntax: one constructor per row of spec/opcode_table.json (30_encoding.md R84),
with decoded operands (R81, R82). -/

namespace Sys2Proof

/-- A field-element register number, 0 to 15, named r0 to r15 (10_state.md R20, 30_encoding.md R81). -/
abbrev Reg := Fin 16

/-- A field tag: the identity of one of four modulus instances (10_state.md R22). -/
abbrev Tag := BitVec 2

/-- The constant index of FLDC: 0 selects b, 1 Gx, 2 Gy, 3 ONE (30_encoding.md R82). -/
inductive ConstSel where
  | b
  | gx
  | gy
  | one
  deriving DecidableEq, Repr

/-- The network of ADDR (30_encoding.md R82, 43_address_derivation.md R174). -/
inductive Network where
  | mainnet
  | testnet
  deriving DecidableEq, Repr

/-- The thirteen commands (30_encoding.md R84); operands stand destination first, as in R88. -/
inductive Instr where
  /-- FLD rd, tag=t (40_field_arithmetic.md R103). -/
  | fld (rd : Reg) (tag : Tag)
  /-- FLDC rd, k (40_field_arithmetic.md R104). -/
  | fldc (rd : Reg) (k : ConstSel)
  /-- FST ra (40_field_arithmetic.md R105). -/
  | fst (ra : Reg)
  /-- FADD rd, ra, rb (40_field_arithmetic.md R106). -/
  | fadd (rd ra rb : Reg)
  /-- FSUB rd, ra, rb (40_field_arithmetic.md R107). -/
  | fsub (rd ra rb : Reg)
  /-- FMUL rd, ra, rb (40_field_arithmetic.md R108). -/
  | fmul (rd ra rb : Reg)
  /-- FDIV rd, ra, rb (40_field_arithmetic.md R109). -/
  | fdiv (rd ra rb : Reg)
  /-- FINV rd, rb (40_field_arithmetic.md R110). -/
  | finv (rd rb : Reg)
  /-- FEQ ra, rb (40_field_arithmetic.md R111). -/
  | feq (ra rb : Reg)
  /-- PONC ra (41_point_doubler.md R142). -/
  | ponc (ra : Reg)
  /-- PDBL rd, ra (41_point_doubler.md R141). -/
  | pdbl (rd ra : Reg)
  /-- PSER ra (42_point_serializer.md R160). -/
  | pser (ra : Reg)
  /-- ADDR ra, net (43_address_derivation.md R170). -/
  | addr (ra : Reg) (net : Network)
  deriving DecidableEq, Repr

end Sys2Proof
end

