-- ==== Sys2Proof/WellFormed.lean ====
section
/-! DEFINITION. Which commands of the syntax are commands of the machine: a point command's register fields are even
(30_encoding.md R81, R83). Every other operand is legal at every value its type holds. -/

namespace Sys2Proof

/-- A register number that names a point pair is even: the pair is FE[r], FE[r+1] (10_state.md R25). -/
def Reg.isEven (r : Reg) : Bool := r.val % 2 == 0

/-- The well-formed commands (30_encoding.md R83). -/
def Instr.wf : Instr → Bool
  | .fld _ _ => true
  | .fldc _ _ => true
  | .fst _ => true
  | .fadd _ _ _ => true
  | .fsub _ _ _ => true
  | .fmul _ _ _ => true
  | .fdiv _ _ _ => true
  | .finv _ _ => true
  | .feq _ _ => true
  | .ponc ra => Reg.isEven ra
  | .pdbl rd ra => Reg.isEven rd && Reg.isEven ra
  | .pser ra => Reg.isEven ra
  | .addr ra _ => Reg.isEven ra

end Sys2Proof
end

