-- ==== Sys2Proof/Decode.lean ====
section
/-! DEFINITION. The decoder, total on 32-bit words and rejecting by name (30_encoding.md R90), and after it the encoder,
written from the same format and table (R80, R84). -/

namespace Sys2Proof

/-! ### The fields of the one format (30_encoding.md R80) -/

/-- op = cmd[31:26]. -/
def opField (w : Word) : BitVec 6 := w.extractLsb' 26 6
/-- rd = cmd[25:22]. -/
def rdField (w : Word) : Reg := (w.extractLsb' 22 4).toFin
/-- ra = cmd[21:18]. -/
def raField (w : Word) : Reg := (w.extractLsb' 18 4).toFin
/-- rb = cmd[17:14]. -/
def rbField (w : Word) : Reg := (w.extractLsb' 14 4).toFin
/-- tag = cmd[13:12]. -/
def tagField (w : Word) : Tag := w.extractLsb' 12 2
/-- imm8 = cmd[7:0]. -/
def imm8Field (w : Word) : Byte := w.extractLsb' 0 8

/-! ### The opcode table (30_encoding.md R84) -/

/-- The thirteen mnemonics of the table. -/
inductive Mnemonic where
  | FLD | FLDC | FST | FADD | FSUB | FMUL | FDIV | FINV | FEQ | PONC | PDBL | PSER | ADDR
  deriving DecidableEq, Repr

/-- One row: a word is of this row when its bits under the mask are the match. -/
structure OpcodeRow where
  mnemonic : Mnemonic
  matchBits : Word
  mask : Word
  deriving DecidableEq, Repr

/-- The rows of R84, in the table's order. -/
def opcodeTable : List OpcodeRow := [
  ⟨.FLD, 0x04000000#32, 0xFC3FCFFF#32⟩,
  ⟨.FLDC, 0x08000000#32, 0xFC3FFFFC#32⟩,
  ⟨.FST, 0x0C000000#32, 0xFFC3FFFF#32⟩,
  ⟨.FADD, 0x10000000#32, 0xFC003FFF#32⟩,
  ⟨.FSUB, 0x14000000#32, 0xFC003FFF#32⟩,
  ⟨.FMUL, 0x18000000#32, 0xFC003FFF#32⟩,
  ⟨.FDIV, 0x1C000000#32, 0xFC003FFF#32⟩,
  ⟨.FINV, 0x20000000#32, 0xFC3C3FFF#32⟩,
  ⟨.FEQ, 0x24000000#32, 0xFFC03FFF#32⟩,
  ⟨.PONC, 0x40000000#32, 0xFFC7FFFF#32⟩,
  ⟨.PDBL, 0x44000000#32, 0xFC47FFFF#32⟩,
  ⟨.PSER, 0x60000000#32, 0xFFC7FFFF#32⟩,
  ⟨.ADDR, 0x80000000#32, 0xFFC7FF00#32⟩]

/-- Whether a word is of a row: (w & mask) == match. -/
def OpcodeRow.hit (w : Word) (r : OpcodeRow) : Bool := w &&& r.mask == r.matchBits

/-! ### Rejections -/

/-- Why a word is ILLEGAL (30_encoding.md R83, R86). The machine raises the one cause IllegalCommand for each
(60_exceptions.md R201); which name is given is the model's own, unobservable (log 9). -/
inductive Illegal where
  /-- The opcode is not in the opcode map (R86). -/
  | reservedOpcode
  /-- A must-be-zero bit of the row is 1: an unused field, the res field, or an odd register of a point command (R83). -/
  | mustBeZero
  /-- ADDR with an imm8 other than 0x00 and 0x6F (R86). -/
  | networkByte
  deriving DecidableEq, Repr

/-- The name of the rejection of a word that no row matches. -/
def rejectionOf (w : Word) : Illegal :=
  if opcodeTable.any (fun r => opField r.matchBits == opField w) then .mustBeZero else .reservedOpcode

/-! ### Decoding -/

/-- The constant that an FLDC index selects: imm8[1:0] (R82). -/
def constSelOf (k : BitVec 2) : ConstSel :=
  if k = 0#2 then .b else if k = 1#2 then .gx else if k = 2#2 then .gy else .one

/-- The network that an ADDR imm8 names, if it names one (R82, R86). -/
def networkOf? (imm8 : Byte) : Option Network :=
  if imm8 = Config.mainnetByte then some .mainnet
  else if imm8 = Config.testnetByte then some .testnet
  else none

/-- The command of a word that is of the row of a mnemonic (R90). -/
def readOperands (m : Mnemonic) (w : Word) : Except Illegal Instr :=
  match m with
  | .FLD => .ok (.fld (rdField w) (tagField w))
  | .FLDC => .ok (.fldc (rdField w) (constSelOf (w.extractLsb' 0 2)))
  | .FST => .ok (.fst (raField w))
  | .FADD => .ok (.fadd (rdField w) (raField w) (rbField w))
  | .FSUB => .ok (.fsub (rdField w) (raField w) (rbField w))
  | .FMUL => .ok (.fmul (rdField w) (raField w) (rbField w))
  | .FDIV => .ok (.fdiv (rdField w) (raField w) (rbField w))
  | .FINV => .ok (.finv (rdField w) (rbField w))
  | .FEQ => .ok (.feq (raField w) (rbField w))
  | .PONC => .ok (.ponc (raField w))
  | .PDBL => .ok (.pdbl (rdField w) (raField w))
  | .PSER => .ok (.pser (raField w))
  | .ADDR =>
    match networkOf? (imm8Field w) with
    | some net => .ok (.addr (raField w) net)
    | none => .error .networkByte

/-- decode: every 32-bit word is one command or ILLEGAL (R90). -/
def decode (w : Word) : Except Illegal Instr :=
  match opcodeTable.find? (OpcodeRow.hit w) with
  | some r => readOperands r.mnemonic w
  | none => .error (rejectionOf w)

/-- The command that the decoder reads from an instruction whose bits, numbered as spec/opcode_table.json numbers them, are
the low nbits bits of w; a command is one 32-bit word (R80, R87), carried whole by the bus (20_memory.md R56). -/
def decodeTableWord (nbits w : Nat) : Option Instr :=
  let bits := w % 2 ^ nbits
  if bits < 2 ^ 32 then
    match decode (BitVec.ofNat 32 bits) with
    | .ok i => some i
    | .error _ => none
  else none

/-! ### Encoding -/

/-- A command word from its fields; the res field is 0 (R80, R83). -/
def assemble (op : BitVec 6) (rd ra rb : Reg) (tag : Tag) (imm8 : Byte) : Word :=
  op ++ BitVec.ofFin (w := 4) rd ++ BitVec.ofFin (w := 4) ra ++ BitVec.ofFin (w := 4) rb ++ tag ++ 0#4 ++ imm8

/-- The index of a constant (R82). -/
def constIndex : ConstSel → Byte
  | .b => 0
  | .gx => 1
  | .gy => 2
  | .one => 3

/-- The network byte itself (43_address_derivation.md R174). -/
def Network.byte : Network → Byte
  | .mainnet => Config.mainnetByte
  | .testnet => Config.testnetByte

/-- The word of a command (R84): its opcode, its used fields, and 0 in every other field. -/
def encode : Instr → Word
  | .fld rd tag => assemble 0x01 rd 0 0 tag 0
  | .fldc rd k => assemble 0x02 rd 0 0 0 (constIndex k)
  | .fst ra => assemble 0x03 0 ra 0 0 0
  | .fadd rd ra rb => assemble 0x04 rd ra rb 0 0
  | .fsub rd ra rb => assemble 0x05 rd ra rb 0 0
  | .fmul rd ra rb => assemble 0x06 rd ra rb 0 0
  | .fdiv rd ra rb => assemble 0x07 rd ra rb 0 0
  | .finv rd rb => assemble 0x08 rd 0 rb 0 0
  | .feq ra rb => assemble 0x09 0 ra rb 0 0
  | .ponc ra => assemble 0x10 0 ra 0 0 0
  | .pdbl rd ra => assemble 0x11 rd ra 0 0 0
  | .pser ra => assemble 0x18 0 ra 0 0 0
  | .addr ra net => assemble 0x20 0 ra 0 0 net.byte

end Sys2Proof
end

