-- ==== Sys2Proof/Machine/State.lean ====
section
/-! DEFINITION. The state of BAG-CORE as plain data (10_state.md), with the environment's turns beside it, and the state after
reset (10_state.md R39). -/

namespace Sys2Proof.Machine

/-- A field value: an integer in [0, P) (10_state.md R20, R21: "A model may type `value` as `Fin P`"). -/
abbrev Residue := Fin Config.P

/-- A FieldElement: the content of a valid FE register (10_state.md R20). -/
structure Elem where
  /-- The value, 0 ≤ value < P (R20, R21). -/
  value : Residue
  /-- The modulus instance it belongs to (R22). -/
  tag : Tag
  deriving DecidableEq, Repr

/-- An accepted command (10_state.md R32). -/
structure Pending where
  /-- The command word accepted by the CMD write. -/
  cmd : Word
  /-- DIN at the moment of acceptance. -/
  din : Raw256
  deriving DecidableEq, Repr

/-- The error causes (60_exceptions.md R200). -/
inductive Cause where
  | illegalCommand
  | unwrittenOperand
  | fieldMismatch
  | divisionByZero
  deriving DecidableEq, Repr

/-- A bus width that the window does not take (20_memory.md R51). -/
inductive OtherWidth where
  | w8
  | w16
  | w64
  deriving DecidableEq, Repr

/-- One host access to the window (20_memory.md R51), at an offset from BASE. -/
inductive HostAccess where
  /-- HostRead(off). -/
  | read (off : Offset)
  /-- HostWrite(off, w). -/
  | write (off : Offset) (w : Word)
  /-- An access of another width, which the interface contract excludes. -/
  | otherWidth (width : OtherWidth) (off : Offset)
  deriving DecidableEq, Repr

/-- One turn of an execution: an execution is an interleaving of host accesses and ENGINE steps (20_memory.md R65), and the
reset input may be asserted (70_reset_and_hazards.md R240). Log 1. -/
inductive Turn where
  /-- The ENGINE's turn. -/
  | engine
  /-- The HOST's turn: one access. -/
  | host (a : HostAccess)
  /-- The platform asserts the reset input. -/
  | resetInput
  deriving DecidableEq, Repr

/-- The state. STATUS is held field by field (10_state.md R28); its BUSY bit is `pend.isSome` (R32), its reserved bits read 0.
The constant ROM never changes (R37) and is Config's; CMD and CTRL keep no value (R29, R38). -/
structure State where
  /-- FE[0] to FE[15]; `none` is INVALID (R20, R24). -/
  fe : Vector (Option Elem) 16
  /-- PEND; `none` is empty (R32). -/
  pend : Option Pending
  /-- STATUS.ERR (R28). -/
  err : Bool
  /-- STATUS.DROP (R28). -/
  drop : Bool
  /-- STATUS.EQ (R27, R28). -/
  eq : Bool
  /-- STATUS.ONC (R27, R28). -/
  onc : Bool
  /-- STATUS.ERRCAUSE (R28). -/
  errcause : BitVec 4
  /-- STATUS.OUTLEN (R28, R35). -/
  outlen : BitVec 6
  /-- ERRINFO (R30). -/
  errinfo : Word
  /-- Bits 1:0 of DTAG; bits 31:2 read as 0 (R31). -/
  dtag : Tag
  /-- DIN (R33). -/
  din : Raw256
  /-- DOUT (R34). -/
  dout : Raw256
  /-- OUT[0] to OUT[32] (R35). -/
  out : Vector Byte 33
  /-- The turns still to come, the next one first: the model's own field, of the environment (20_memory.md R65). Log 1. -/
  turns : List Turn
  /-- The words that the HOST's reads returned, the last one first: the model's own field, of the environment. Log 2. -/
  hostReads : List Word
  deriving DecidableEq, Repr

/-- The one stop of the machine itself. -/
inductive Fault where
  /-- Raised by the step, and by a meaning run while PEND is empty: no agent has a step. "An idle ENGINE (`PEND` empty) simply
  has no step" (60_exceptions.md R222), and no turn is to come. Safe. Logs 3, 4. -/
  | engineIdle
  deriving DecidableEq, Repr

/-- What has no step. -/
inductive Refusal where
  /-- An instruction that has no meaning yet. Raised by refused arms of exec only. Safe. -/
  | notModelled (mnemonic : String)
  /-- Raised by a host access of another width than 32 bits or at an offset not a multiple of 4: "a model gives it no step (the
  host is stuck, a refusal)" (20_memory.md R51). Safe. Log 11. -/
  | accessOutsideContract
  deriving DecidableEq, Repr

/-- What one step answers. -/
abbrev StepOutcome := Host.Outcome State Fault Refusal

/-- The machine right after reset (10_state.md R39), with no turn to come and nothing read (the environment's, logs 1 and 2). -/
def State.reset : State where
  fe := Vector.replicate 16 none
  pend := none
  err := false
  drop := false
  eq := false
  onc := false
  errcause := 0
  outlen := 0
  errinfo := 0
  dtag := 0
  din := 0
  dout := 0
  out := Vector.replicate 33 0
  turns := []
  hostReads := []

end Sys2Proof.Machine
end

