-- ==== Sys2Proof/Machine/Bytes.lean ====
section
/-! DEFINITION. Byte and word order: the big-endian encoding BE_n of 00_scope.md R14, the words of a 256-bit register
(20_memory.md R54) and the bytes of OUT (20_memory.md R55, 10_state.md R35). -/

namespace Sys2Proof.Machine

/-- BE_n(v): the n-byte big-endian encoding of v < 2^(8n), most significant byte first (00_scope.md R14). -/
def be (n v : Nat) : ByteString :=
  (List.range n).map fun i => BitVec.ofNat 8 (v / 256 ^ (n - 1 - i))

/-- word(v, k) = v[255-32k : 224-32k], for 0 ≤ k ≤ 7 (20_memory.md R54). -/
def wordOf (v : Raw256) (k : Nat) : Word := v.extractLsb' (224 - 32 * k) 32

/-- v with bits [255-32k : 224-32k] replaced by w (20_memory.md R54). -/
def setWord (v : Raw256) (k : Nat) (w : Word) : Raw256 :=
  (v &&& ~~~((0xFFFFFFFF#256) <<< (224 - 32 * k))) ||| (w.setWidth 256 <<< (224 - 32 * k))

/-- The value whose words, in offset order, are the given ones: the sum of word(v, k) * 2^(224-32k) (20_memory.md R54). -/
def valueOfWords (ws : List Word) : Nat := ws.foldl (fun acc w => acc * 2 ^ 32 + w.toNat) 0

/-- The 33 bytes of OUT from a byte string: its bytes first, and 0 beyond them (10_state.md R35). -/
def outOf (b : ByteString) : Vector Byte 33 := Vector.ofFn fun i => b.getD i.val 0

/-- OUT[i], where "a byte index above 32 reads as 0" (20_memory.md R55). -/
def outByte (out : Vector Byte 33) (i : Nat) : Byte := if h : i < 33 then out[i] else 0

/-- Word k of OUT: OUT[4k] in bits 31:24 to OUT[4k+3] in bits 7:0 (20_memory.md R55). -/
def outWord (out : Vector Byte 33) (k : Nat) : Word :=
  outByte out (4 * k) ++ outByte out (4 * k + 1) ++ outByte out (4 * k + 2) ++ outByte out (4 * k + 3)

/-- The bytes of a word, bits 31:24 first (30_encoding.md R89, READOUT). -/
def bytesOfWord (w : Word) : ByteString :=
  [w.extractLsb' 24 8, w.extractLsb' 16 8, w.extractLsb' 8 8, w.extractLsb' 0 8]

end Sys2Proof.Machine
end

