-- ==== Sys2Proof/Machine/Ops.lean ====
section
/-! DEFINITION. The named operations over the state: the register file, the completion of a command and of an error
(60_exceptions.md R203), the return from the error state (R215) and the reset (70_reset_and_hazards.md R240). -/

namespace Sys2Proof.Machine

/-- What a command's rule yields: a value, or the cause it raises (00_scope.md R15). -/
abbrev Result (α : Type) := Except Cause α

/-- STATUS.ERRCAUSE of a cause (60_exceptions.md R200). -/
def Cause.code : Cause → BitVec 4
  | .illegalCommand => 1
  | .unwrittenOperand => 2
  | .fieldMismatch => 3
  | .divisionByZero => 4

/-- FE[i], INVALID as `none` (00_scope.md R15). -/
def State.readFe (s : State) (i : Reg) : Option Elem := s.fe[i.val]

/-- FE[i] <- e, which makes the register valid (00_scope.md R15). -/
def State.writeFe (s : State) (i : Reg) (e : Elem) : State := { s with fe := s.fe.set i.val (some e) }

/-- The register that holds Y where r holds X: r + 1 (10_state.md R25). For an even r it never wraps. -/
def pairY (r : Reg) : Reg := ⟨(r.val + 1) % 16, by omega⟩

/-- DOUT <- value, DTAG <- tag (40_field_arithmetic.md R105). -/
def State.writeDout (s : State) (e : Elem) : State :=
  { s with dout := BitVec.ofNat 256 e.value.val, dtag := e.tag }

/-- OUT <- the bytes, 0 beyond them; OUTLEN <- their number (10_state.md R35). -/
def State.writeOut (s : State) (b : ByteString) : State :=
  { s with out := outOf b, outlen := BitVec.ofNat 6 b.length }

/-- PEND <- empty, so STATUS.BUSY <- 0 (10_state.md R32). -/
def State.emptyPend (s : State) : State := { s with pend := none }

/-- TAKING AN ERROR: the error completion of 60_exceptions.md R203, "exactly this and nothing else". This is trap entry alone
(R213): there is no pc, mode or vector. -/
def State.errorCompletion (s : State) (c : Cause) (cmd : Word) : State :=
  { s with err := true, errcause := c.code, errinfo := cmd, pend := none }

/-- RETURN FROM THE ERROR STATE: the effect of CTRL.CLR (60_exceptions.md R215), "and nothing else". -/
def State.clearError (s : State) : State :=
  { s with err := false, errcause := 0, errinfo := 0, drop := false }

/-- The reset of 70_reset_and_hazards.md R240: every piece of BAG-CORE's state at its reset value. The turns to come and the
words already read are the environment's and stay (log 12). -/
def State.resetCore (s : State) : State :=
  { State.reset with turns := s.turns, hostReads := s.hostReads }

/-- The ENGINE's completion step for a command whose rule is `rule`: every effect, or the error completion, in one update that
also empties PEND (10_state.md R32). Without a pending command the ENGINE has no step (log 4). -/
def State.complete (s : State) (rule : Pending → Result State) : StepOutcome :=
  match s.pend with
  | none => .fault .engineIdle
  | some p =>
    match rule p with
    | .ok t => .next t.emptyPend
    | .error c => .next (s.errorCompletion c p.cmd)

end Sys2Proof.Machine
end

