-- ==== Sys2Proof/Machine/Primitives.lean ====
section
/-! DEFINITION. The field-operation primitives of 00_scope.md R16: check, fadd, fsub, fmul, fdiv, feq, smul. Intermediates are
exact integers, reduced by the floored mod P (R14, 40_field_arithmetic.md R102). -/

namespace Sys2Proof.Machine

theorem P_pos : 0 < Config.P := by decide

/-- z mod P, the unique representative in [0, P) (00_scope.md R14). -/
def residue (z : Int) : Residue :=
  ⟨(z % (Config.P : Int)).toNat, by
    have hP : (0 : Int) < (Config.P : Int) := by exact_mod_cast P_pos
    have h0 := Int.emod_nonneg z (ne_of_gt hP)
    have h1 := Int.emod_lt_of_pos z hP
    omega⟩

/-- Square and multiply, least significant bit first: acc * b^e mod m over `fuel` bits of e (40_field_arithmetic.md R113: the
algorithm is unobservable). -/
def powModLoop (m : Nat) : Nat → Nat → Nat → Nat → Nat
  | 0, _, acc, _ => acc
  | fuel + 1, b, acc, e =>
    powModLoop m fuel (b * b % m) (if e % 2 = 1 then acc * b % m else acc) (e / 2)

/-- b^e mod m for an exponent below 2^256 (00_scope.md R14). -/
def powMod (m b e : Nat) : Nat := powModLoop m 256 b 1 e

/-- b^(P-2) mod P: the modular inverse by Fermat (00_scope.md R18, 40_field_arithmetic.md R110). -/
def inverse (b : Residue) : Residue := residue (powMod Config.P b.val (Config.P - 2))

/-- check(a, b): the operands belong to one modulus instance (00_scope.md R16; tags alone decide, 10_state.md R22). -/
def check (a b : Elem) : Result Unit := if a.tag = b.tag then .ok () else .error .fieldMismatch

/-- fadd(a, b) (00_scope.md R16). -/
def fadd (a b : Elem) : Result Elem := do
  check a b
  return ⟨residue ((a.value.val : Int) + b.value.val), a.tag⟩

/-- fsub(a, b): the difference over the integers, then floored mod (00_scope.md R16). -/
def fsub (a b : Elem) : Result Elem := do
  check a b
  return ⟨residue ((a.value.val : Int) - b.value.val), a.tag⟩

/-- fmul(a, b) (00_scope.md R16). -/
def fmul (a b : Elem) : Result Elem := do
  check a b
  return ⟨residue ((a.value.val : Int) * b.value.val), a.tag⟩

/-- The zero test of a divisor (00_scope.md R16). -/
def nonzero (b : Elem) : Result Unit := if b.value.val = 0 then .error .divisionByZero else .ok ()

/-- fdiv(a, b): the field check comes before the zero test (00_scope.md R16). -/
def fdiv (a b : Elem) : Result Elem := do
  check a b
  nonzero b
  return ⟨residue ((a.value.val : Int) * (inverse b.value).val), a.tag⟩

/-- feq(a, b) (00_scope.md R16). -/
def feq (a b : Elem) : Result Bool := do
  check a b
  return decide (a.value.val = b.value.val)

/-- smul(n + 1, a): a with a added to it n more times, so smul(1, a) = a (00_scope.md R16; the coefficient is at least 1). -/
def smulSucc : Nat → Elem → Result Elem
  | 0, a => .ok a
  | n + 1, a => do
    let r ← smulSucc n a
    fadd r a

/-- smul(2, a) (00_scope.md R16). -/
def smul2 (a : Elem) : Result Elem := smulSucc 1 a

/-- smul(3, a) (00_scope.md R16). -/
def smul3 (a : Elem) : Result Elem := smulSucc 2 a

/-- The element of a fixed constant below P: tag 0, the process-wide instance (10_state.md R22, R36). -/
def constElem (n : Nat) : Elem := ⟨residue n, 0⟩

/-- The constants FLDC loads: [b, Gx, Gy, ONE] (40_field_arithmetic.md R104). -/
def constOf : ConstSel → Elem
  | .b => constElem Config.curveB
  | .gx => constElem Config.Gx
  | .gy => constElem Config.Gy
  | .one => constElem 1

end Sys2Proof.Machine
end

