-- ==== Sys2Proof/Machine/Operands.lean ====
section
/-! DEFINITION. The operand forms: a source register (40_field_arithmetic.md R100), a point pair (41_point_doubler.md R140),
the even specifier of a point (30_encoding.md R81, R83). -/

namespace Sys2Proof.Machine

/-- src(i): a source register; INVALID raises UnwrittenOperand (40_field_arithmetic.md R100, 60_exceptions.md R202). -/
def src (s : State) (i : Reg) : Result Elem :=
  match s.readFe i with
  | some e => .ok e
  | none => .error .unwrittenOperand

/-- A point's register specifier is even; an odd one is IllegalCommand, before any register is read (60_exceptions.md R201). The
decoder has already refused such a word, so no step meets it here (log 10). -/
def evenReg (r : Reg) : Result Unit := if Reg.isEven r then .ok () else .error .illegalCommand

/-- The two sources of a two-operand field command, ra then rb (40_field_arithmetic.md R100). -/
def src2 (s : State) (ra rb : Reg) : Result (Elem × Elem) := do
  let a ← src s ra
  let b ← src s rb
  return (a, b)

/-- pt(r): the pair X = FE[r], Y = FE[r+1], X first, of one tag (41_point_doubler.md R140). -/
def pt (s : State) (r : Reg) : Result (Elem × Elem) := do
  evenReg r
  let x ← src s r
  let y ← src s (pairY r)
  check x y
  return (x, y)

end Sys2Proof.Machine
end

