-- ==== Sys2Proof/Machine/Flags.lean ====
section
/-! DEFINITION. The two result flags (10_state.md R27) and the STATUS word they stand in (10_state.md R28). No arithmetic command
has a carry, overflow, sign or zero flag (R27). -/

namespace Sys2Proof.Machine

/-- STATUS.EQ <- the result of FEQ (10_state.md R27). -/
def State.writeEq (s : State) (v : Bool) : State := { s with eq := v }

/-- STATUS.ONC <- the result of PONC (10_state.md R27). -/
def State.writeOnc (s : State) (v : Bool) : State := { s with onc := v }

/-- STATUS.BUSY: 1 exactly when PEND is not empty (10_state.md R32). -/
def State.busy (s : State) : Bool := s.pend.isSome

/-- A flag as one bit. -/
def bit (v : Bool) : BitVec 1 := BitVec.ofBool v

/-- The STATUS word (10_state.md R28), bit 31 first: reserved, OUTLEN, reserved, ERRCAUSE, reserved, ONC, EQ, DROP, ERR, BUSY. -/
def State.statusWord (s : State) : Word :=
  0#10 ++ s.outlen ++ 0#4 ++ s.errcause ++ 0#3 ++ bit s.onc ++ bit s.eq ++ bit s.drop ++ bit s.err ++ bit s.busy

end Sys2Proof.Machine
end

