-- ==== Sys2Proof/Machine/PointSerializer.lean ====
section
/-! DEFINITION. The meaning of point_serializer: PSER (42_point_serializer.md). -/

namespace Sys2Proof.Machine

/-- The prefix byte: the numeric parity of Y (42_point_serializer.md R160, R161). -/
def secPrefix (y : Elem) : Byte := if y.value.val % 2 = 0 then 0x02 else 0x03

/-- The 33-byte compressed SEC encoding: the prefix, then BE_32(X) (42_point_serializer.md R160). -/
def secBytes (x y : Elem) : ByteString := secPrefix y :: be 32 x.value.val

/-- PSER ra (42_point_serializer.md R160). -/
def execPser (ra : Reg) (s : State) : StepOutcome :=
  s.complete fun _ => do
    let (x, y) ← pt s ra
    return s.writeOut (secBytes x y)

end Sys2Proof.Machine
end

