-- ==== Sys2Proof/Machine/AddressPipeline.lean ====
section
/-! DEFINITION. The meaning of address_derivation_pipeline: ADDR (43_address_derivation.md), over the attached hash units
(60_exceptions.md R232). -/

namespace Sys2Proof.Machine

/-- body = [net] ‖ RIPEMD160(SHA256(sec)) (43_address_derivation.md R170, R171). -/
def addressBody (sha : ByteString → Vector Byte 32) (ripemd : ByteString → Vector Byte 20) (net : Byte) (sec : ByteString) :
    ByteString :=
  net :: (ripemd (sha sec).toList).toList

/-- The 25-byte payload: the body, then the first 4 bytes of SHA256(SHA256(body)) (43_address_derivation.md R170, R172, R173).
The hash units are arguments here; the machine's are Config's. -/
def addressPayload (sha : ByteString → Vector Byte 32) (ripemd : ByteString → Vector Byte 20) (net : Byte) (sec : ByteString) :
    ByteString :=
  addressBody sha ripemd net sec ++ ((sha (sha (addressBody sha ripemd net sec)).toList).toList).take 4

/-- ADDR ra, net (43_address_derivation.md R170); the point is not validated (R175). -/
def execAddr (ra : Reg) (net : Network) (s : State) : StepOutcome :=
  s.complete fun _ => do
    let (x, y) ← pt s ra
    return s.writeOut (addressPayload Config.sha256 Config.ripemd160 net.byte (secBytes x y))

end Sys2Proof.Machine
end

