-- ==== Sys2Proof/Machine/FieldArithmetic.lean ====
section
/-! DEFINITION. The meanings of modular_field_arithmetic: FLD, FLDC, FST, FADD, FSUB, FMUL, FDIV, FINV, FEQ
(40_field_arithmetic.md). -/

namespace Sys2Proof.Machine

/-- FLD rd, tag=t: FE[rd] <- (din mod P, t), with din the snapshot (40_field_arithmetic.md R103). -/
def execFld (rd : Reg) (tag : Tag) (s : State) : StepOutcome :=
  s.complete fun p => .ok (s.writeFe rd ⟨residue p.din.toNat, tag⟩)

/-- FLDC rd, k (40_field_arithmetic.md R104). -/
def execFldc (rd : Reg) (k : ConstSel) (s : State) : StepOutcome :=
  s.complete fun _ => .ok (s.writeFe rd (constOf k))

/-- FST ra (40_field_arithmetic.md R105). -/
def execFst (ra : Reg) (s : State) : StepOutcome :=
  s.complete fun _ => do
    let a ← src s ra
    return s.writeDout a

/-- The shape of FADD, FSUB, FMUL and FDIV: both sources, then the operation, then FE[rd] (40_field_arithmetic.md R100, R101). -/
def binaryField (op : Elem → Elem → Result Elem) (rd ra rb : Reg) (s : State) : StepOutcome :=
  s.complete fun _ => do
    let (a, b) ← src2 s ra rb
    let r ← op a b
    return s.writeFe rd r

/-- FADD rd, ra, rb (40_field_arithmetic.md R106). -/
def execFadd (rd ra rb : Reg) (s : State) : StepOutcome := binaryField fadd rd ra rb s

/-- FSUB rd, ra, rb (40_field_arithmetic.md R107). -/
def execFsub (rd ra rb : Reg) (s : State) : StepOutcome := binaryField fsub rd ra rb s

/-- FMUL rd, ra, rb (40_field_arithmetic.md R108). -/
def execFmul (rd ra rb : Reg) (s : State) : StepOutcome := binaryField fmul rd ra rb s

/-- FDIV rd, ra, rb (40_field_arithmetic.md R109). -/
def execFdiv (rd ra rb : Reg) (s : State) : StepOutcome := binaryField fdiv rd ra rb s

/-- FINV rd, rb (40_field_arithmetic.md R110); the implicit one takes b's tag, so no mismatch can arise. -/
def execFinv (rd rb : Reg) (s : State) : StepOutcome :=
  s.complete fun _ => do
    let b ← src s rb
    nonzero b
    return s.writeFe rd ⟨inverse b.value, b.tag⟩

/-- FEQ ra, rb (40_field_arithmetic.md R111). -/
def execFeq (ra rb : Reg) (s : State) : StepOutcome :=
  s.complete fun _ => do
    let (a, b) ← src2 s ra rb
    let r ← feq a b
    return s.writeEq r

end Sys2Proof.Machine
end

