-- ==== Sys2Proof/Machine/PointDoubler.lean ====
section
/-! DEFINITION. The meanings of secp256k1_point_doubler: PONC and PDBL (41_point_doubler.md). -/

namespace Sys2Proof.Machine

/-- Whether y² = x³ + b holds, by field operations; b carries tag 0 (41_point_doubler.md R142). -/
def onCurve (x y : Elem) : Result Bool := do
  let lhs ← fmul y y
  let xx ← fmul x x
  let xxx ← fmul xx x
  let rhs ← fadd xxx (constOf .b)
  feq lhs rhs

/-- PONC ra (41_point_doubler.md R142). -/
def execPonc (ra : Reg) (s : State) : StepOutcome :=
  s.complete fun _ => do
    let (x, y) ← pt s ra
    let r ← onCurve x y
    return s.writeOnc r

/-- The source's Double(p), affine tangent doubling, in the rule's order (41_point_doubler.md R141). -/
def doublePoint (x y : Elem) : Result (Elem × Elem) := do
  let xx ← fmul x x
  let num ← smul3 xx
  let den ← smul2 y
  let c ← fdiv num den
  let cc ← fmul c c
  let xTwice ← smul2 x
  let x2 ← fsub cc xTwice
  let dx ← fsub x x2
  let cdx ← fmul c dx
  let y2 ← fsub cdx y
  return (x2, y2)

/-- PDBL rd, ra (41_point_doubler.md R141): the pair is read before FE[rd] and FE[rd+1] are written. -/
def execPdbl (rd ra : Reg) (s : State) : StepOutcome :=
  s.complete fun _ => do
    evenReg rd
    let (x, y) ← pt s ra
    let (x2, y2) ← doublePoint x y
    return (s.writeFe rd x2).writeFe (pairY rd) y2

end Sys2Proof.Machine
end

