-- ==== Sys2Proof/Machine/Dispatch.lean ====
section
/-! DEFINITION. The dispatch of a decoded command to its meaning (30_encoding.md R84). -/

namespace Sys2Proof.Machine

def exec (i : Instr) (s : State) : Host.Outcome State Fault Refusal :=
  match i with
  | .fld rd tag => Sys2Proof.Machine.execFld rd tag s
  | .fldc rd k => Sys2Proof.Machine.execFldc rd k s
  | .fst ra => Sys2Proof.Machine.execFst ra s
  | .fadd rd ra rb => Sys2Proof.Machine.execFadd rd ra rb s
  | .fsub rd ra rb => Sys2Proof.Machine.execFsub rd ra rb s
  | .fmul rd ra rb => Sys2Proof.Machine.execFmul rd ra rb s
  | .fdiv rd ra rb => Sys2Proof.Machine.execFdiv rd ra rb s
  | .finv rd rb => Sys2Proof.Machine.execFinv rd rb s
  | .feq ra rb => Sys2Proof.Machine.execFeq ra rb s
  | .ponc ra => Sys2Proof.Machine.execPonc ra s
  | .pdbl rd ra => Sys2Proof.Machine.execPdbl rd ra s
  | .pser ra => Sys2Proof.Machine.execPser ra s
  | .addr ra net => Sys2Proof.Machine.execAddr ra net s

end Sys2Proof.Machine
end

