-- ==== Sys2Proof/Machine/Window.lean ====
section
/-! DEFINITION. The host register window: where it stands in the host's addresses (20_memory.md R50), its map (R52, R53), its
reads and writes (R54 to R61), and one host access as a step (R51, R62). -/

namespace Sys2Proof.Machine

/-- The window's offset of a host address, where the address falls into the window at BASE (20_memory.md R50). An address
outside it does not reach BAG-CORE (R63; log 6). -/
def offsetOfAddress (addr : Nat) : Option Offset :=
  if Config.base ≤ addr ∧ addr < Config.base + 4096 then some (BitVec.ofNat 12 (addr - Config.base)) else none

/-- What stands at an offset; k is the word of a multi-word register (20_memory.md R52). -/
inductive WindowReg where
  | cmd
  | status
  | ctrl
  | errinfo
  | dtag
  | din (k : Nat)
  | dout (k : Nat)
  | out (k : Nat)
  | constP (k : Nat)
  | constB (k : Nat)
  | constGx (k : Nat)
  | constGy (k : Nat)
  | unmapped
  deriving DecidableEq, Repr

/-- The register map (20_memory.md R52); every other offset is unmapped (R53). -/
def windowReg (off : Offset) : WindowReg :=
  let o := off.toNat
  if o = 0x000 then .cmd
  else if o = 0x004 then .status
  else if o = 0x008 then .ctrl
  else if o = 0x00C then .errinfo
  else if o = 0x010 then .dtag
  else if 0x020 ≤ o ∧ o ≤ 0x03C then .din ((o - 0x020) / 4)
  else if 0x040 ≤ o ∧ o ≤ 0x05C then .dout ((o - 0x040) / 4)
  else if 0x060 ≤ o ∧ o ≤ 0x080 then .out ((o - 0x060) / 4)
  else if 0x0A0 ≤ o ∧ o ≤ 0x0BC then .constP ((o - 0x0A0) / 4)
  else if 0x0C0 ≤ o ∧ o ≤ 0x0DC then .constB ((o - 0x0C0) / 4)
  else if 0x0E0 ≤ o ∧ o ≤ 0x0FC then .constGx ((o - 0x0E0) / 4)
  else if 0x100 ≤ o ∧ o ≤ 0x11C then .constGy ((o - 0x100) / 4)
  else .unmapped

/-- HostRead(off): the word at an offset (20_memory.md R52 to R56); write-only registers and unmapped offsets read 0 (R53). -/
def State.hostRead (s : State) (off : Offset) : Word :=
  match windowReg off with
  | .cmd => 0
  | .status => s.statusWord
  | .ctrl => 0
  | .errinfo => s.errinfo
  | .dtag => s.dtag.setWidth 32
  | .din k => wordOf s.din k
  | .dout k => wordOf s.dout k
  | .out k => outWord s.out k
  | .constP k => wordOf (BitVec.ofNat 256 Config.P) k
  | .constB k => wordOf (BitVec.ofNat 256 Config.curveB) k
  | .constGx k => wordOf (BitVec.ofNat 256 Config.Gx) k
  | .constGy k => wordOf (BitVec.ofNat 256 Config.Gy) k
  | .unmapped => 0

/-- A command offer: accepted exactly when BUSY = 0 and ERR = 0, with DIN as it is; otherwise dropped (20_memory.md R58). -/
def State.offerCommand (s : State) (w : Word) : State :=
  if s.busy = false ∧ s.err = false then { s with pend := some ⟨w, s.din⟩ } else { s with drop := true }

/-- A write to CTRL: SRST alone where bit 1 is set, else CLR where bit 0 is set, else nothing (10_state.md R29). -/
def State.writeCtrl (s : State) (w : Word) : State :=
  if w.getLsbD 1 then s.resetCore
  else if w.getLsbD 0 then s.clearError
  else s

/-- HostWrite(off, w): only CMD, CTRL and DIN take a write; any other is ignored (20_memory.md R53, R54, R58, R61). -/
def State.hostWrite (s : State) (off : Offset) (w : Word) : State :=
  match windowReg off with
  | .cmd => s.offerCommand w
  | .status => s
  | .ctrl => s.writeCtrl w
  | .errinfo => s
  | .dtag => s
  | .din k => { s with din := setWord s.din k w }
  | .dout _ => s
  | .out _ => s
  | .constP _ => s
  | .constB _ => s
  | .constGx _ => s
  | .constGy _ => s
  | .unmapped => s

/-- An offset that the interface contract allows: a multiple of 4 (20_memory.md R51). -/
def Offset.aligned (off : Offset) : Bool := off.toNat % 4 == 0

/-- One host access as one indivisible step (20_memory.md R62). A read hands its word to the HOST and changes nothing else (R61);
an access outside the contract has no step (R51). -/
def State.hostStep (s : State) (a : HostAccess) : StepOutcome :=
  match a with
  | .read off =>
    if Offset.aligned off then .next { s with hostReads := s.hostRead off :: s.hostReads }
    else .refused .accessOutsideContract
  | .write off w => if Offset.aligned off then .next (s.hostWrite off w) else .refused .accessOutsideContract
  | .otherWidth _ _ => .refused .accessOutsideContract

end Sys2Proof.Machine
end

