-- ==== Sys2Proof/Machine/Engine.lean ====
section
/-! DEFINITION. The two agents' steps put together: the ENGINE's one step (10_state.md R32) and the turns of an execution
(20_memory.md R65). -/

namespace Sys2Proof.Machine

/-- The ENGINE's only step: with a pending command it executes the word, or raises IllegalCommand where the word decodes to
ILLEGAL (10_state.md R32, 60_exceptions.md R201); with PEND empty it has no step (R222). -/
def engineStep (s : State) : StepOutcome :=
  match s.pend with
  | none => .fault .engineIdle
  | some p =>
    match decode p.cmd with
    | .ok i => exec i s
    | .error _ => s.complete fun _ => .error .illegalCommand

/-- One turn, already taken off the list. An ENGINE turn with nothing pending passes: every state survives idleness
(60_exceptions.md R222; log 3). -/
def State.takeTurn (s : State) (t : Turn) : StepOutcome :=
  match t with
  | .engine => if s.busy then engineStep s else .next s
  | .host a => s.hostStep a
  | .resetInput => .next s.resetCore

/-- The next step of the execution: the next turn, or, where no turn is listed, the ENGINE's step, so that every accepted
command completes (70_reset_and_hazards.md R251; log 13). -/
def State.advance (s : State) : StepOutcome :=
  match s.turns with
  | [] => engineStep s
  | t :: rest => { s with turns := rest }.takeTurn t

end Sys2Proof.Machine
end

