-- ==== Sys2Proof/Machine/Step.lean ====
section
/-! DEFINITION. The step of the machine, and the placement of one command word where the next step executes it. -/

namespace Sys2Proof.Machine

/-- One step (20_memory.md R65). -/
def step (s : State) : Host.Outcome State Fault Refusal := s.advance

/-- s with a command word pending, as an accepted CMD write leaves it (20_memory.md R58), and the ENGINE's turn next (log 8). The
word is the low nbits bits of w, its upper bits 0. -/
def State.withFetchWord (s : State) (nbits w : Nat) : State :=
  { s with
    pend := some ⟨BitVec.ofNat 32 (w % 2 ^ nbits), s.din⟩
    turns := .engine :: s.turns }

end Sys2Proof.Machine
end

