-- ==== Sys2Proof/Machine/HostSide.lean ====
section
/-! DEFINITION. The HOST's side of the interface: the five host macros of 30_encoding.md R89 as lists of turns, the assembler text
of a command (R88), and the two texts the host forms from OUT (42_point_serializer.md R164, 43_address_derivation.md R177,
R178). None of it is BAG-CORE's. -/

namespace Sys2Proof.Machine

/-! ### Host macros (30_encoding.md R89) -/

/-- HostRead(off) as a turn. -/
def readTurn (off : Nat) : Turn := .host (.read (BitVec.ofNat 12 off))

/-- HostWrite(off, w) as a turn. -/
def writeTurn (off : Nat) (w : Word) : Turn := .host (.write (BitVec.ofNat 12 off) w)

/-- WAITIDLE: the poll loop on STATUS.BUSY, as the execution in which `polls` reads come before the ENGINE's turn. The loop ends
because the ENGINE's turn comes (70_reset_and_hazards.md R251). Log 14. -/
def waitIdle (polls : Nat) : List Turn := List.replicate polls (readTurn 0x004) ++ [.engine, readTurn 0x004]

/-- ISSUE w: WAITIDLE; HostWrite(0x000, w); WAITIDLE. -/
def issue (pollsBefore pollsAfter : Nat) (w : Word) : List Turn :=
  waitIdle pollsBefore ++ [writeTurn 0x000 w] ++ waitIdle pollsAfter

/-- LOADFE rd, t, v: the eight words of DIN, then ISSUE of the FLD. -/
def loadFe (pollsBefore pollsAfter : Nat) (rd : Reg) (t : Tag) (v : Raw256) : List Turn :=
  ((List.range 8).map fun k => writeTurn (0x020 + 4 * k) (wordOf v k)) ++ issue pollsBefore pollsAfter (encode (.fld rd t))

/-- STOREFE ra: ISSUE of the FST, then the eight words of DOUT. -/
def storeFe (pollsBefore pollsAfter : Nat) (ra : Reg) : List Turn :=
  issue pollsBefore pollsAfter (encode (.fst ra)) ++ (List.range 8).map fun k => readTurn (0x040 + 4 * k)

/-- READOUT: the nine words of OUT. -/
def readOut : List Turn := (List.range 9).map fun k => readTurn (0x060 + 4 * k)

/-- The last n words the HOST read, the first of them first. -/
def State.lastReads (s : State) (n : Nat) : List Word := (s.hostReads.take n).reverse

/-- The value STOREFE yields from its eight reads. -/
def State.storedValue (s : State) : Nat := valueOfWords (s.lastReads 8)

/-- The n bytes READOUT yields from its nine reads, bits 31:24 of each word first. -/
def State.readOutBytes (s : State) (n : Nat) : ByteString := ((s.lastReads 9).flatMap bytesOfWord).take n

/-! ### Assembler text (30_encoding.md R88) -/

/-- A register's name, r0 to r15. -/
def regText (r : Reg) : String := "r" ++ toString r.val

/-- A constant's name. -/
def ConstSel.text : ConstSel → String
  | .b => "B"
  | .gx => "GX"
  | .gy => "GY"
  | .one => "ONE"

/-- A network's name. -/
def netText : Network → String
  | .mainnet => "MAINNET"
  | .testnet => "TESTNET"

/-- The assembler text of a command, in the spelling of the examples of R88. -/
def asmText : Instr → String
  | .fld rd tag => "FLD " ++ regText rd ++ ", tag=" ++ toString tag.toNat
  | .fldc rd k => "FLDC " ++ regText rd ++ ", " ++ ConstSel.text k
  | .fst ra => "FST " ++ regText ra
  | .fadd rd ra rb => "FADD " ++ regText rd ++ ", " ++ regText ra ++ ", " ++ regText rb
  | .fsub rd ra rb => "FSUB " ++ regText rd ++ ", " ++ regText ra ++ ", " ++ regText rb
  | .fmul rd ra rb => "FMUL " ++ regText rd ++ ", " ++ regText ra ++ ", " ++ regText rb
  | .fdiv rd ra rb => "FDIV " ++ regText rd ++ ", " ++ regText ra ++ ", " ++ regText rb
  | .finv rd rb => "FINV " ++ regText rd ++ ", " ++ regText rb
  | .feq ra rb => "FEQ " ++ regText ra ++ ", " ++ regText rb
  | .ponc ra => "PONC " ++ regText ra
  | .pdbl rd ra => "PDBL " ++ regText rd ++ ", " ++ regText ra
  | .pser ra => "PSER " ++ regText ra
  | .addr ra net => "ADDR " ++ regText ra ++ ", " ++ netText net

/-! ### Texts of OUT -/

/-- The digit of a nibble in a letter case (42_point_serializer.md R164). -/
def hexDigit (c : Config.HexCase) (n : Nat) : Char :=
  let digits := match c with
    | .lower => ['0', '1', '2', '3', '4', '5', '6', '7', '8', '9', 'a', 'b', 'c', 'd', 'e', 'f']
    | .upper => ['0', '1', '2', '3', '4', '5', '6', '7', '8', '9', 'A', 'B', 'C', 'D', 'E', 'F']
  digits.getD n '0'

/-- Two digits per byte in byte order, the high nibble first (42_point_serializer.md R164). -/
def hexText (c : Config.HexCase) (b : ByteString) : List Char :=
  b.flatMap fun x => [hexDigit c (x.toNat / 16), hexDigit c (x.toNat % 16)]

/-- The bytes OUT[0] to OUT[n-1]. -/
def State.outBytes (s : State) (n : Nat) : ByteString := s.out.toList.take n

/-- ToHex(p): the host's hex text of the 33 SEC bytes after PSER (42_point_serializer.md R164). -/
def State.toHex (s : State) : List Char := hexText Config.hexCase (s.outBytes 33)

/-- The address text: the external encoder's, from OUT[0] to OUT[24] (43_address_derivation.md R177). -/
def State.addressText (s : State) : String := Config.base58 (s.outBytes 25)

/-- The Bitcoin Base58 alphabet (43_address_derivation.md R178). -/
def base58Alphabet : List Char :=
  ['1', '2', '3', '4', '5', '6', '7', '8', '9', 'A', 'B', 'C', 'D', 'E', 'F', 'G', 'H', 'J', 'K', 'L', 'M', 'N', 'P', 'Q',
    'R', 'S', 'T', 'U', 'V', 'W', 'X', 'Y', 'Z'] ++
  ['a', 'b', 'c', 'd', 'e', 'f', 'g', 'h', 'i', 'j', 'k', 'm', 'n', 'o', 'p', 'q', 'r', 's', 't', 'u', 'v', 'w', 'x', 'y',
    'z']

/-- The base-58 digits of n, most significant first, none for 0; `fuel` bounds their number. -/
def base58Digits : Nat → Nat → List Char
  | 0, _ => []
  | fuel + 1, n => if n = 0 then [] else base58Digits fuel (n / 58) ++ [base58Alphabet.getD (n % 58) '1']

/-- The value of a byte string read big-endian. -/
def beValue (b : ByteString) : Nat := b.foldl (fun acc x => acc * 256 + x.toNat) 0

/-- The concrete encoder of 43_address_derivation.md R178: one '1' per leading zero byte, then the digits. It is used only where a
concrete address text is named; the host's encoder is the OPEN `Config.base58` (log 5). -/
def standardBase58 (b : ByteString) : List Char :=
  List.replicate (b.takeWhile (· == 0)).length '1' ++ base58Digits (2 * b.length) (beValue b)

end Sys2Proof.Machine
end

