-- ==== Sys2Proof/Safety.lean ====
section
/-! DEFINITION. What a safe state of BAG-CORE is: the invariant of its registers, from the sentences of 10_state.md R28 to R35,
60_exceptions.md R200 and R216, and the terms in which the statements speak of errors. -/

namespace Sys2Proof.Machine

/-- The cause codes that are ever produced: 1 to 4 (60_exceptions.md R200). -/
def producedCode (c : BitVec 4) : Bool := c == 1 || c == 2 || c == 3 || c == 4

/-- The error fields agree: with no error latched ERRCAUSE and ERRINFO are 0 (10_state.md R28, R30); with one latched the cause is
one of the four (60_exceptions.md R200) and no command is pending (60_exceptions.md R216). -/
def State.errorFieldsOk (s : State) : Bool :=
  if s.err then producedCode s.errcause && s.pend.isNone else s.errcause == 0 && s.errinfo == 0

/-- The bytes of OUT at and beyond n are 0 (10_state.md R35). -/
def zeroFrom (out : Vector Byte 33) (n : Nat) : Bool := (out.toList.drop n).all (· == 0)

/-- OUTLEN takes only 0, 25 and 33 (10_state.md R28, R35), OUT is 0 at and beyond OUTLEN (R35), and byte 0 is a SEC prefix
(42_point_serializer.md R162) or a network byte (43_address_derivation.md R172, R174). -/
def State.outOk (s : State) : Bool :=
  (s.outlen == 0 && zeroFrom s.out 0) ||
  (s.outlen == 25 && zeroFrom s.out 25 && (outByte s.out 0 == Config.mainnetByte || outByte s.out 0 == Config.testnetByte)) ||
  (s.outlen == 33 && (outByte s.out 0 == 0x02 || outByte s.out 0 == 0x03))

/-- DOUT is the value of an element, or 0 (10_state.md R34). -/
def State.doutOk (s : State) : Bool := decide (s.dout.toNat < Config.P)

/-- A safe state: what every step keeps. -/
abbrev State.Inv (s : State) : Prop := s.errorFieldsOk = true ∧ s.outOk = true ∧ s.doutOk = true

/-- A state of some execution from reset, with whatever turns the environment brings: it adds a turn at any time. -/
inductive Reachable : State → Prop where
  | reset : Reachable State.reset
  | turn (s : State) (t : Turn) : Reachable s → Reachable { s with turns := s.turns ++ [t] }
  | step (s s' : State) : Reachable s → Machine.step s = .next s' → Reachable s'

end Sys2Proof.Machine
end

