-- ==== Sys2Proof/Certificates/Slice0/Obligations.lean ====
section
/-! DEFINITION. The statements for the provers. First the terms they are stated in, written from the spec's words and not from the
model's meanings; then the obligations, each with the rule of spec/ it formalises. `s.fe[r.val]` is FE[r], `none` is INVALID; `ra + 1` is
the Y register of an even `ra` (10_state.md R25). -/

namespace Sys2Proof.Terms

open Sys2Proof.Machine

/-- The four assignments of 60_exceptions.md R203 and nothing else. -/
def latched (s : State) (code : BitVec 4) (cmd : Word) : State :=
  { s with err := true, errcause := code, errinfo := cmd, pend := none }

/-- The next step is the ENGINE's, and `rest` are the turns left after it: the ENGINE's turn is first, or no turn is listed. -/
def EngineNext (s : State) (rest : List Turn) : Prop := s.turns = .engine :: rest ∨ (s.turns = [] ∧ rest = [])

/-- Whenever w is pending and the ENGINE is next, the step is the command i. -/
def ExecutesAs (w : Word) (i : Instr) : Prop :=
  ∀ (s : State) (rest : List Turn) (din : Raw256), EngineNext s rest → s.pend = some ⟨w, din⟩ →
    step s = exec i { s with turns := rest }

/-- Whenever w is pending and the ENGINE is next, the step raises IllegalCommand, code 1 (60_exceptions.md R201, R203). -/
def IllegalWhenExecuted (w : Word) : Prop :=
  ∀ (s : State) (rest : List Turn) (din : Raw256), EngineNext s rest → s.pend = some ⟨w, din⟩ →
    step s = .next (latched { s with turns := rest } 1 w)

/-- Bits 25:22, 21:18, 17:14 and 13:12 of a command word (30_encoding.md R80). -/
def rdOf (w : Word) : Reg := (w.extractLsb' 22 4).toFin
def raOf (w : Word) : Reg := (w.extractLsb' 18 4).toFin
def rbOf (w : Word) : Reg := (w.extractLsb' 14 4).toFin
def tagOf (w : Word) : Tag := w.extractLsb' 12 2

/-- The row of an opcode in 30_encoding.md R84: a word of that opcode is the command iff its bits under the mask are the match, and is
illegal otherwise. -/
def RowExecutes (op : BitVec 6) (matchBits mask : Word) (command : Word → Instr) : Prop :=
  ∀ w : Word, w.extractLsb' 26 6 = op →
    (w &&& mask = matchBits → ExecutesAs w (command w)) ∧ (w &&& mask ≠ matchBits → IllegalWhenExecuted w)

/-- The match and mask columns of 30_encoding.md R84. -/
def rowsOfR84 : List (Word × Word) := [
  (0x04000000#32, 0xFC3FCFFF#32), (0x08000000#32, 0xFC3FFFFC#32), (0x0C000000#32, 0xFFC3FFFF#32), (0x10000000#32, 0xFC003FFF#32),
  (0x14000000#32, 0xFC003FFF#32), (0x18000000#32, 0xFC003FFF#32), (0x1C000000#32, 0xFC003FFF#32), (0x20000000#32, 0xFC3C3FFF#32),
  (0x24000000#32, 0xFFC03FFF#32), (0x40000000#32, 0xFFC7FFFF#32), (0x44000000#32, 0xFC47FFFF#32), (0x60000000#32, 0xFFC7FFFF#32),
  (0x80000000#32, 0xFFC7FF00#32)]

/-- The opcodes of 30_encoding.md R84. -/
def opcodesOfR84 : List (BitVec 6) := [0x01, 0x02, 0x03, 0x04, 0x05, 0x06, 0x07, 0x08, 0x09, 0x10, 0x11, 0x18, 0x20]

/-- A word encodes a command: a row matches, and ADDR's byte is 0x00 or 0x6F (30_encoding.md R84). -/
def EncodesACommand (w : Word) : Prop :=
  ∃ row ∈ rowsOfR84, w &&& row.2 = row.1 ∧
    (row.1 = 0x80000000#32 → w.extractLsb' 0 8 = 0x00#8 ∨ w.extractLsb' 0 8 = 0x6F#8)

/-- FE[r] is INVALID. -/
def invalid (s : State) (r : Reg) : Bool := s.fe[r.val].isNone

/-- Two valid registers of different tags. -/
def tagsDiffer (s : State) (r q : Reg) : Bool :=
  match s.fe[r.val], s.fe[q.val] with
  | some a, some b => a.tag != b.tag
  | _, _ => false

/-- A valid register of value 0. -/
def isZero (s : State) (r : Reg) : Bool :=
  match s.fe[r.val] with
  | some a => a.value.val == 0
  | none => false

/-- A valid register whose tag is not 0. -/
def tagNotZero (s : State) (r : Reg) : Bool :=
  match s.fe[r.val] with
  | some a => a.tag != 0
  | none => false

/-- The source registers, in the order the rule reads them (10_state.md R23, 60_exceptions.md R211). -/
def sources : Instr → List Reg
  | .fld _ _ => []
  | .fldc _ _ => []
  | .fst ra => [ra]
  | .fadd _ ra rb => [ra, rb]
  | .fsub _ ra rb => [ra, rb]
  | .fmul _ ra rb => [ra, rb]
  | .fdiv _ ra rb => [ra, rb]
  | .finv _ rb => [rb]
  | .feq ra rb => [ra, rb]
  | .ponc ra => [ra, ra + 1]
  | .pdbl _ ra => [ra, ra + 1]
  | .pser ra => [ra, ra + 1]
  | .addr ra _ => [ra, ra + 1]

/-- Step 3 of 60_exceptions.md R211. -/
def mismatched (s : State) : Instr → Bool
  | .fld _ _ => false
  | .fldc _ _ => false
  | .fst _ => false
  | .fadd _ ra rb => tagsDiffer s ra rb
  | .fsub _ ra rb => tagsDiffer s ra rb
  | .fmul _ ra rb => tagsDiffer s ra rb
  | .fdiv _ ra rb => tagsDiffer s ra rb
  | .finv _ _ => false
  | .feq ra rb => tagsDiffer s ra rb
  | .ponc ra => tagsDiffer s ra (ra + 1) || tagNotZero s ra
  | .pdbl _ ra => tagsDiffer s ra (ra + 1)
  | .pser ra => tagsDiffer s ra (ra + 1)
  | .addr ra _ => tagsDiffer s ra (ra + 1)

/-- Step 4 of 60_exceptions.md R211: the zero divisor of FDIV and FINV, the Y of PDBL (R200). -/
def zeroDivisor (s : State) : Instr → Bool
  | .fdiv _ _ rb => isZero s rb
  | .finv _ rb => isZero s rb
  | .pdbl _ ra => isZero s (ra + 1)
  | .fld _ _ => false
  | .fldc _ _ => false
  | .fst _ => false
  | .fadd _ _ _ => false
  | .fsub _ _ _ => false
  | .fmul _ _ _ => false
  | .feq _ _ => false
  | .ponc _ => false
  | .pser _ => false
  | .addr _ _ => false

/-- The code of the first cause that applies to a legal command, in the order of 60_exceptions.md R211; 0 when none does. -/
def firstCause (s : State) (i : Instr) : BitVec 4 :=
  if (sources i).any (invalid s) then 2 else if mismatched s i then 3 else if zeroDivisor s i then 4 else 0

/-- The codes that a legal command can raise: the table of 60_exceptions.md R200. -/
def raisable : Instr → List (BitVec 4)
  | .fld _ _ => []
  | .fldc _ _ => []
  | .fst _ => [2]
  | .fadd _ _ _ => [2, 3]
  | .fsub _ _ _ => [2, 3]
  | .fmul _ _ _ => [2, 3]
  | .fdiv _ _ _ => [2, 3, 4]
  | .finv _ _ => [2, 4]
  | .feq _ _ => [2, 3]
  | .ponc _ => [2, 3]
  | .pdbl _ _ => [2, 3, 4]
  | .pser _ => [2, 3]
  | .addr _ _ => [2, 3]

/-- ERRCAUSE is a cause that the word in ERRINFO can raise (60_exceptions.md R200). -/
def ErrinfoFits (s : State) : Prop :=
  s.err = true →
    match decode s.errinfo with
    | .error _ => s.errcause = 1
    | .ok i => s.errcause ∈ raisable i

/-- FE[r] is a destination of the command (10_state.md R23). -/
def isDestination (r : Reg) : Instr → Bool
  | .fld rd _ => r == rd
  | .fldc rd _ => r == rd
  | .fadd rd _ _ => r == rd
  | .fsub rd _ _ => r == rd
  | .fmul rd _ _ => r == rd
  | .fdiv rd _ _ => r == rd
  | .finv rd _ => r == rd
  | .pdbl rd _ => r == rd || r == rd + 1
  | .fst _ => false
  | .feq _ _ => false
  | .ponc _ => false
  | .pser _ => false
  | .addr _ _ => false

/-- The commands whose destination is DOUT and DTAG; STATUS.EQ; STATUS.ONC; OUT and OUTLEN (10_state.md R23). -/
def writesDout (i : Instr) : Prop := ∃ ra, i = .fst ra
def writesEq (i : Instr) : Prop := ∃ ra rb, i = .feq ra rb
def writesOnc (i : Instr) : Prop := ∃ ra, i = .ponc ra
def writesOut (i : Instr) : Prop := (∃ ra, i = .pser ra) ∨ ∃ ra net, i = .addr ra net

/-- y² = x³ + 7 mod P (41_point_doubler.md R142). -/
def CurveEquation (x y : Nat) : Prop := y * y % Config.P = (x * x * x + 7) % Config.P

/-- The compressed SEC bytes: the prefix of Y's parity, then the 32 big-endian bytes of X (42_point_serializer.md R160). -/
def secOf (x y : Nat) : ByteString :=
  (if y % 2 = 0 then 0x02#8 else 0x03#8) :: List.ofFn fun i : Fin 32 => BitVec.ofNat 8 (x / 256 ^ (31 - i.val) % 256)

/-- net ‖ HASH160(sec) (43_address_derivation.md R170). -/
def bodyOf (net : Byte) (sec : ByteString) : ByteString :=
  net :: (Config.ripemd160 (Config.sha256 sec).toList).toList

/-- The checksum: the first 4 bytes of the double digest of the body (43_address_derivation.md R173). -/
def checksumOf (body : ByteString) : ByteString :=
  ((Config.sha256 (Config.sha256 body).toList).toList).take 4

/-- An aligned 32-bit access (20_memory.md R51). -/
def inContract : HostAccess → Bool
  | .read off => off.toNat % 4 == 0
  | .write off _ => off.toNat % 4 == 0
  | .otherWidth _ _ => false

/-- A turn that has a step at every state: not an access outside the contract. That an ENGINE turn with PEND empty has one, in which it
passes, is the model's choice (log 3). -/
def legalTurn : Turn → Bool
  | .engine => true
  | .host a => inContract a
  | .resetInput => true

/-- The turn resets the core: the reset input, or a CTRL write with bit 1 set (70_reset_and_hazards.md R240). -/
def resets : Turn → Bool
  | .engine => false
  | .resetInput => true
  | .host (.write off w) => off.toNat == 0x008 && w.getLsbD 1
  | .host (.read _) => false
  | .host (.otherWidth _ _) => false

/-- The turn clears the error state: a CTRL write with bit 0 set (60_exceptions.md R215). -/
def clears : Turn → Bool
  | .engine => false
  | .resetInput => false
  | .host (.write off w) => off.toNat == 0x008 && w.getLsbD 0
  | .host (.read _) => false
  | .host (.otherWidth _ _) => false

/-- The turn is a host write to a word of DIN (20_memory.md R52). -/
def writesDin : Turn → Bool
  | .engine => false
  | .resetInput => false
  | .host (.write off _) => 0x020 ≤ off.toNat && off.toNat ≤ 0x03C
  | .host (.read _) => false
  | .host (.otherWidth _ _) => false

/-- The first turn, if any, does not satisfy q. -/
def firstTurnNot (q : Turn → Bool) (s : State) : Prop := ∀ t ∈ s.turns.head?, q t = false

/-- The state with nothing but the environment's fields and DIN, DROP taken from t: what a latched error lets change. -/
def keepsResults (s t : State) : Prop :=
  t.fe = s.fe ∧ t.eq = s.eq ∧ t.onc = s.onc ∧ t.out = s.out ∧ t.outlen = s.outlen ∧ t.dout = s.dout ∧ t.dtag = s.dtag ∧
    t.err = s.err ∧ t.errcause = s.errcause ∧ t.errinfo = s.errinfo ∧ t.pend = s.pend

end Sys2Proof.Terms

open Sys2Proof Sys2Proof.Machine Sys2Proof.Terms

/-! ### Encoding -/

/-- The thirteen example words of 30_encoding.md R88 decode to the commands they stand for. -/
def Obligations.DecodesTheSyntaxTableWords : Prop :=
  decode 0x04801000#32 = .ok (.fld 2 1) ∧ decode 0x08000001#32 = .ok (.fldc 0 .gx) ∧ decode 0x0C140000#32 = .ok (.fst 5) ∧
  decode 0x10C48000#32 = .ok (.fadd 3 1 2) ∧ decode 0x14C48000#32 = .ok (.fsub 3 1 2) ∧
  decode 0x18C48000#32 = .ok (.fmul 3 1 2) ∧ decode 0x1CC48000#32 = .ok (.fdiv 3 1 2) ∧
  decode 0x20C08000#32 = .ok (.finv 3 2) ∧ decode 0x24048000#32 = .ok (.feq 1 2) ∧ decode 0x40000000#32 = .ok (.ponc 0) ∧
  decode 0x44800000#32 = .ok (.pdbl 2 0) ∧ decode 0x60080000#32 = .ok (.pser 2) ∧
  decode 0x80000000#32 = .ok (.addr 0 .mainnet)

/-- Every well-formed command, at every operand, is read back from its word (30_encoding.md R80, R84, R90). -/
def Obligations.DecodeOfEncodeIsTheCommand : Prop :=
  ∀ i : Instr, i.wf = true → decode (encode i) = .ok i

/-- Each word has at most one meaning, and a command has one word: a decoded word is the encoding of its command, and the
command is well-formed (30_encoding.md R83, R87). -/
def Obligations.EncodeOfDecodeIsTheWord : Prop :=
  ∀ (w : Word) (i : Instr), decode w = .ok i → encode i = w ∧ i.wf = true

/-- "A word `w` encodes a command iff `(w & mask) == match` and the extra constraint, if any, holds" (30_encoding.md R84). -/
def Obligations.WordIsACommandIffARowMatches : Prop :=
  ∀ w : Word, (∃ i, decode w = .ok i) ↔ EncodesACommand w

/-- Every word that is not of the opcode map raises IllegalCommand when executed: a reserved opcode, the all-zero word, a listed opcode
with a must-be-zero bit set, an ADDR byte that names no network (30_encoding.md R86). -/
def Obligations.IllegalWordsRaiseIllegalCommand : Prop :=
  (∀ w : Word, w.extractLsb' 26 6 ∉ opcodesOfR84 → IllegalWhenExecuted w) ∧ IllegalWhenExecuted 0#32 ∧
  (∀ w : Word, ¬ EncodesACommand w → IllegalWhenExecuted w)

/-! ### The step -/

/-- With a pending word that decodes to i, and the ENGINE next, the step is exec of i, with the ENGINE's turn taken off the list
(10_state.md R32). -/
def Obligations.StepRunsTheDecodedCommand : Prop :=
  ∀ (s : State) (rest : List Turn) (p : Pending) (i : Instr), EngineNext s rest → s.pend = some p → decode p.cmd = .ok i →
    step s = exec i { s with turns := rest }

/-- An idle ENGINE has no step: with PEND empty and no turn to come the machine is stuck, and no meaning runs
(60_exceptions.md R222, 70_reset_and_hazards.md R242; the name of the stop is the model's, logs 3 and 4). -/
def Obligations.IdleEngineHasNoStep : Prop :=
  ∀ s : State, s.pend = none → (s.turns = [] → step s = .fault .engineIdle) ∧ ∀ i : Instr, exec i s = .fault .engineIdle

/-- An ENGINE turn with PEND empty leaves every state: the model's choice of how such a turn passes (log 3), after "every state
survives idleness" (60_exceptions.md R222). -/
def Obligations.IdleEngineTurnKeepsEveryState : Prop :=
  ∀ (s : State) (rest : List Turn), s.pend = none → s.turns = .engine :: rest → step s = .next { s with turns := rest }

/-- The ENGINE's one step executes whatever is pending, legal or not, to completion: PEND is empty after it, and DIN, DROP and the
environment's fields are as before (10_state.md R32, R33). -/
def Obligations.EngineStepCompletesThePendingCommand : Prop :=
  ∀ (s : State) (rest : List Turn) (p : Pending), EngineNext s rest → s.pend = some p →
    ∃ t, step s = .next t ∧ t.pend = none ∧ t.din = s.din ∧ t.drop = s.drop ∧ t.turns = rest ∧ t.hostReads = s.hostReads

/-- A command handed over by a CMD write to an idle core without an error runs at the ENGINE's next turn, with DIN as it was at the
write (20_memory.md R58, 10_state.md R32). -/
def Obligations.CmdWriteThenEngineTurnRunsTheCommand : Prop :=
  ∀ (s : State) (i : Instr) (rest : List Turn), i.wf = true → s.pend = none → s.err = false →
    s.turns = .host (.write 0x000 (encode i)) :: .engine :: rest →
    ∃ t, step s = .next t ∧ step t = exec i { s with pend := some ⟨encode i, s.din⟩, turns := rest }

/-- Weak fairness pays off: whatever legal turns come first, the run up to and including the ENGINE's turn succeeds and leaves
PEND empty (70_reset_and_hazards.md R251). Where PEND is empty at an ENGINE turn, among the first or the last, that turn passes: this is
the model's choice (log 3), since an idle ENGINE "simply has no step" (60_exceptions.md R222). -/
def Obligations.EngineTurnEndsEveryWait : Prop :=
  ∀ (s : State) (pre rest : List Turn), s.turns = pre ++ .engine :: rest → (∀ t ∈ pre, legalTurn t = true) →
    ∃ t, Host.Core.run Sys2Proof.core (pre.length + 1) s = .next t ∧ t.pend = none ∧ t.turns = rest

/-! ### modular_field_arithmetic -/

/-- FLD (40_field_arithmetic.md R103): the snapshot of DIN mod P, with the tag of the word; no register is read. -/
def Obligations.FldLoadsTheSnapshotModP : Prop :=
  RowExecutes 0x01#6 0x04000000#32 0xFC3FCFFF#32 (fun w => .fld (rdOf w) (tagOf w)) ∧
  ∀ (s : State) (p : Pending) (rd : Reg) (t : Tag), s.pend = some p →
    ∃ v : Residue, v.val = p.din.toNat % Config.P ∧ (v.val = p.din.toNat ∨ v.val + Config.P = p.din.toNat) ∧
      exec (.fld rd t) s = .next { s with fe := s.fe.set rd.val (some ⟨v, t⟩), pend := none }

/-- FLDC (40_field_arithmetic.md R104): [7, Gx, Gy, 1][k] with tag 0. -/
def Obligations.FldcLoadsTheConstant : Prop :=
  RowExecutes 0x02#6 0x08000000#32 0xFC3FFFFC#32
    (fun w => .fldc (rdOf w) ([ConstSel.b, .gx, .gy, .one].getD (w.extractLsb' 0 2).toNat .b)) ∧
  ∀ (s : State) (p : Pending) (rd : Reg) (k : ConstSel), s.pend = some p →
    ∃ v : Residue,
      v.val = (match k with
        | .b => 7
        | .gx => 0x79BE667EF9DCBBAC55A06295CE870B07029BFCDB2DCE28D959F2815B16F81798
        | .gy => 0x483ADA7726A3C4655DA4FBFC0E1108A8FD17B448A68554199C47D08FFB10D4B8
        | .one => 1) ∧
      exec (.fldc rd k) s = .next { s with fe := s.fe.set rd.val (some ⟨v, 0⟩), pend := none }

/-- FST (40_field_arithmetic.md R105): value to DOUT, tag to DTAG; an INVALID source is UnwrittenOperand and leaves both. -/
def Obligations.FstCopiesTheElementOut : Prop :=
  RowExecutes 0x03#6 0x0C000000#32 0xFFC3FFFF#32 (fun w => .fst (raOf w)) ∧
  ∀ (s : State) (p : Pending) (ra : Reg), s.pend = some p →
    (∀ a, s.fe[ra.val] = some a →
      ∃ d : Raw256, d.toNat = a.value.val ∧ exec (.fst ra) s = .next { s with dout := d, dtag := a.tag, pend := none }) ∧
    (s.fe[ra.val] = none → exec (.fst ra) s = .next (latched s 2 p.cmd))

/-- FADD (40_field_arithmetic.md R106). -/
def Obligations.FaddSumsModP : Prop :=
  RowExecutes 0x04#6 0x10000000#32 0xFC003FFF#32 (fun w => .fadd (rdOf w) (raOf w) (rbOf w)) ∧
  ∀ (s : State) (p : Pending) (rd ra rb : Reg), s.pend = some p →
    (∀ a b, s.fe[ra.val] = some a → s.fe[rb.val] = some b → a.tag = b.tag →
      ∃ v : Residue, v.val = (a.value.val + b.value.val) % Config.P ∧
        exec (.fadd rd ra rb) s = .next { s with fe := s.fe.set rd.val (some ⟨v, a.tag⟩), pend := none }) ∧
    (s.fe[ra.val] = none ∨ s.fe[rb.val] = none → exec (.fadd rd ra rb) s = .next (latched s 2 p.cmd)) ∧
    (∀ a b, s.fe[ra.val] = some a → s.fe[rb.val] = some b → a.tag ≠ b.tag →
      exec (.fadd rd ra rb) s = .next (latched s 3 p.cmd))

/-- FSUB (40_field_arithmetic.md R107): the difference over the integers, floored mod. -/
def Obligations.FsubDifferencesModP : Prop :=
  RowExecutes 0x05#6 0x14000000#32 0xFC003FFF#32 (fun w => .fsub (rdOf w) (raOf w) (rbOf w)) ∧
  ∀ (s : State) (p : Pending) (rd ra rb : Reg), s.pend = some p →
    (∀ a b, s.fe[ra.val] = some a → s.fe[rb.val] = some b → a.tag = b.tag →
      ∃ v : Residue, v.val = (if b.value.val ≤ a.value.val then a.value.val - b.value.val
          else a.value.val + Config.P - b.value.val) ∧
        exec (.fsub rd ra rb) s = .next { s with fe := s.fe.set rd.val (some ⟨v, a.tag⟩), pend := none }) ∧
    (s.fe[ra.val] = none ∨ s.fe[rb.val] = none → exec (.fsub rd ra rb) s = .next (latched s 2 p.cmd)) ∧
    (∀ a b, s.fe[ra.val] = some a → s.fe[rb.val] = some b → a.tag ≠ b.tag →
      exec (.fsub rd ra rb) s = .next (latched s 3 p.cmd))

/-- FMUL (40_field_arithmetic.md R108): the exact product mod P. -/
def Obligations.FmulMultipliesModP : Prop :=
  RowExecutes 0x06#6 0x18000000#32 0xFC003FFF#32 (fun w => .fmul (rdOf w) (raOf w) (rbOf w)) ∧
  ∀ (s : State) (p : Pending) (rd ra rb : Reg), s.pend = some p →
    (∀ a b, s.fe[ra.val] = some a → s.fe[rb.val] = some b → a.tag = b.tag →
      ∃ v : Residue, v.val = a.value.val * b.value.val % Config.P ∧
        exec (.fmul rd ra rb) s = .next { s with fe := s.fe.set rd.val (some ⟨v, a.tag⟩), pend := none }) ∧
    (s.fe[ra.val] = none ∨ s.fe[rb.val] = none → exec (.fmul rd ra rb) s = .next (latched s 2 p.cmd)) ∧
    (∀ a b, s.fe[ra.val] = some a → s.fe[rb.val] = some b → a.tag ≠ b.tag →
      exec (.fmul rd ra rb) s = .next (latched s 3 p.cmd))

/-- FDIV (40_field_arithmetic.md R109): a · b^(P-2) mod P; a mismatch is reported before a zero divisor. -/
def Obligations.FdivMultipliesByThePower : Prop :=
  RowExecutes 0x07#6 0x1C000000#32 0xFC003FFF#32 (fun w => .fdiv (rdOf w) (raOf w) (rbOf w)) ∧
  ∀ (s : State) (p : Pending) (rd ra rb : Reg), s.pend = some p →
    (∀ a b, s.fe[ra.val] = some a → s.fe[rb.val] = some b → a.tag = b.tag → b.value.val ≠ 0 →
      ∃ v : Residue, v.val = a.value.val * (b.value.val ^ (Config.P - 2) % Config.P) % Config.P ∧
        exec (.fdiv rd ra rb) s = .next { s with fe := s.fe.set rd.val (some ⟨v, a.tag⟩), pend := none }) ∧
    (s.fe[ra.val] = none ∨ s.fe[rb.val] = none → exec (.fdiv rd ra rb) s = .next (latched s 2 p.cmd)) ∧
    (∀ a b, s.fe[ra.val] = some a → s.fe[rb.val] = some b → a.tag ≠ b.tag →
      exec (.fdiv rd ra rb) s = .next (latched s 3 p.cmd)) ∧
    (∀ a b, s.fe[ra.val] = some a → s.fe[rb.val] = some b → a.tag = b.tag → b.value.val = 0 →
      exec (.fdiv rd ra rb) s = .next (latched s 4 p.cmd))

/-- FINV (40_field_arithmetic.md R110): b^(P-2) mod P, with b's tag. -/
def Obligations.FinvRaisesToThePower : Prop :=
  RowExecutes 0x08#6 0x20000000#32 0xFC3C3FFF#32 (fun w => .finv (rdOf w) (rbOf w)) ∧
  ∀ (s : State) (p : Pending) (rd rb : Reg), s.pend = some p →
    (∀ b, s.fe[rb.val] = some b → b.value.val ≠ 0 →
      ∃ v : Residue, v.val = b.value.val ^ (Config.P - 2) % Config.P ∧
        exec (.finv rd rb) s = .next { s with fe := s.fe.set rd.val (some ⟨v, b.tag⟩), pend := none }) ∧
    (s.fe[rb.val] = none → exec (.finv rd rb) s = .next (latched s 2 p.cmd)) ∧
    (∀ b, s.fe[rb.val] = some b → b.value.val = 0 → exec (.finv rd rb) s = .next (latched s 4 p.cmd))

/-- FEQ (40_field_arithmetic.md R111): EQ, and no other state. -/
def Obligations.FeqComparesValues : Prop :=
  RowExecutes 0x09#6 0x24000000#32 0xFFC03FFF#32 (fun w => .feq (raOf w) (rbOf w)) ∧
  ∀ (s : State) (p : Pending) (ra rb : Reg), s.pend = some p →
    (∀ a b, s.fe[ra.val] = some a → s.fe[rb.val] = some b → a.tag = b.tag →
      exec (.feq ra rb) s = .next { s with eq := decide (a.value.val = b.value.val), pend := none }) ∧
    (s.fe[ra.val] = none ∨ s.fe[rb.val] = none → exec (.feq ra rb) s = .next (latched s 2 p.cmd)) ∧
    (∀ a b, s.fe[ra.val] = some a → s.fe[rb.val] = some b → a.tag ≠ b.tag →
      exec (.feq ra rb) s = .next (latched s 3 p.cmd))

/-! ### secp256k1_point_doubler -/

/-- PONC (41_point_doubler.md R142): ONC is the curve equation; b carries tag 0, so a pair of another tag is FieldMismatch. -/
def Obligations.PoncDecidesTheCurveEquation : Prop :=
  RowExecutes 0x10#6 0x40000000#32 0xFFC7FFFF#32 (fun w => .ponc (raOf w)) ∧
  ∀ (s : State) (p : Pending) (ra : Reg), s.pend = some p → ra.val % 2 = 0 →
    (∀ x y, s.fe[ra.val] = some x → s.fe[(ra + 1).val] = some y → x.tag = 0 → y.tag = 0 →
      ∃ v : Bool, (v = true ↔ CurveEquation x.value.val y.value.val) ∧
        exec (.ponc ra) s = .next { s with onc := v, pend := none }) ∧
    (s.fe[ra.val] = none ∨ s.fe[(ra + 1).val] = none → exec (.ponc ra) s = .next (latched s 2 p.cmd)) ∧
    (∀ x y, s.fe[ra.val] = some x → s.fe[(ra + 1).val] = some y → x.tag ≠ y.tag ∨ x.tag ≠ 0 →
      exec (.ponc ra) s = .next (latched s 3 p.cmd))

/-- PDBL (41_point_doubler.md R141): slope c = (3·X²)/(2·Y), X' = c² − 2·X, Y' = c·(X − X') − Y, both with the tag of X; Y = 0 is
DivisionByZero. -/
def Obligations.PdblDoublesThePoint : Prop :=
  RowExecutes 0x11#6 0x44000000#32 0xFC47FFFF#32 (fun w => .pdbl (rdOf w) (raOf w)) ∧
  ∀ (s : State) (p : Pending) (rd ra : Reg), s.pend = some p → rd.val % 2 = 0 → ra.val % 2 = 0 →
    (∀ x y, s.fe[ra.val] = some x → s.fe[(ra + 1).val] = some y → x.tag = y.tag → y.value.val ≠ 0 →
      ∃ c x2 y2 : Residue,
        c.val = 3 * (x.value.val * x.value.val) * ((2 * y.value.val) ^ (Config.P - 2) % Config.P) % Config.P ∧
        (x2.val : Int) = ((c.val : Int) * c.val - 2 * x.value.val) % (Config.P : Int) ∧
        (y2.val : Int) = ((c.val : Int) * ((x.value.val : Int) - x2.val) - y.value.val) % (Config.P : Int) ∧
        exec (.pdbl rd ra) s =
          .next { s with fe := (s.fe.set rd.val (some ⟨x2, x.tag⟩)).set (rd + 1).val (some ⟨y2, x.tag⟩), pend := none }) ∧
    (s.fe[ra.val] = none ∨ s.fe[(ra + 1).val] = none → exec (.pdbl rd ra) s = .next (latched s 2 p.cmd)) ∧
    (∀ x y, s.fe[ra.val] = some x → s.fe[(ra + 1).val] = some y → x.tag ≠ y.tag →
      exec (.pdbl rd ra) s = .next (latched s 3 p.cmd)) ∧
    (∀ x y, s.fe[ra.val] = some x → s.fe[(ra + 1).val] = some y → x.tag = y.tag → y.value.val = 0 →
      exec (.pdbl rd ra) s = .next (latched s 4 p.cmd))

/-- Doubling keeps the curve: for an on-curve pair with Y ≠ 0, of any one tag, PDBL completes and its output pair is on the curve; and
where the tag is 0, a PONC of the output sets ONC (41_point_doubler.md R145). It rests on P being prime. -/
def Obligations.DoublingStaysOnTheCurve : Prop :=
  ∀ (s : State) (p q : Pending) (rd ra : Reg) (x y : Elem), s.pend = some p → rd.val % 2 = 0 → ra.val % 2 = 0 →
    s.fe[ra.val] = some x → s.fe[(ra + 1).val] = some y → x.tag = y.tag → CurveEquation x.value.val y.value.val →
    y.value.val ≠ 0 →
    ∃ (t : State) (x2 y2 : Elem), exec (.pdbl rd ra) s = .next t ∧ t.fe[rd.val] = some x2 ∧ t.fe[(rd + 1).val] = some y2 ∧
      CurveEquation x2.value.val y2.value.val ∧
      (x.tag = 0 → ∃ u, exec (.ponc rd) { t with pend := some q } = .next u ∧ u.onc = true)

/-- On the curve no point has Y = 0, so the DivisionByZero of PDBL "is therefore reachable only with an off-curve pair"
(41_point_doubler.md R146): −7 is no cube mod P. -/
def Obligations.NoCurvePointHasYZero : Prop :=
  (∀ x y : Residue, CurveEquation x.val y.val → y.val ≠ 0) ∧
  ∀ (s : State) (p : Pending) (rd ra : Reg) (x y : Elem), s.pend = some p → s.err = false → rd.val % 2 = 0 → ra.val % 2 = 0 →
    s.fe[ra.val] = some x → s.fe[(ra + 1).val] = some y → exec (.pdbl rd ra) s = .next (latched s 4 p.cmd) →
    ¬ CurveEquation x.value.val y.value.val

/-! ### point_serializer and address_derivation_pipeline -/

/-- PSER (42_point_serializer.md R160): the 33 SEC bytes in OUT, OUTLEN 33. -/
def Obligations.PserWritesTheSecBytes : Prop :=
  RowExecutes 0x18#6 0x60000000#32 0xFFC7FFFF#32 (fun w => .pser (raOf w)) ∧
  ∀ (s : State) (p : Pending) (ra : Reg), s.pend = some p → ra.val % 2 = 0 →
    (∀ x y, s.fe[ra.val] = some x → s.fe[(ra + 1).val] = some y → x.tag = y.tag →
      ∃ o : Vector Byte 33, o.toList = secOf x.value.val y.value.val ∧
        exec (.pser ra) s = .next { s with out := o, outlen := 33, pend := none }) ∧
    (s.fe[ra.val] = none ∨ s.fe[(ra + 1).val] = none → exec (.pser ra) s = .next (latched s 2 p.cmd)) ∧
    (∀ x y, s.fe[ra.val] = some x → s.fe[(ra + 1).val] = some y → x.tag ≠ y.tag →
      exec (.pser ra) s = .next (latched s 3 p.cmd))

/-- The negated point (X, P − Y) of a point with Y ≠ 0 gets the other prefix, since P is odd, and the same 32 bytes of X
(42_point_serializer.md R160, corner cases). -/
def Obligations.NegatedPointGetsTheOtherPrefix : Prop :=
  ∀ (s₁ s₂ : State) (p₁ p₂ : Pending) (ra : Reg) (x y z : Elem), s₁.pend = some p₁ → s₂.pend = some p₂ → ra.val % 2 = 0 →
    x.tag = y.tag → x.tag = z.tag → y.value.val ≠ 0 → z.value.val = Config.P - y.value.val →
    s₁.fe[ra.val] = some x → s₁.fe[(ra + 1).val] = some y → s₂.fe[ra.val] = some x → s₂.fe[(ra + 1).val] = some z →
    ∃ t₁ t₂, exec (.pser ra) s₁ = .next t₁ ∧ exec (.pser ra) s₂ = .next t₂ ∧
      ((t₁.out[0] = 0x02#8 ∧ t₂.out[0] = 0x03#8) ∨ (t₁.out[0] = 0x03#8 ∧ t₂.out[0] = 0x02#8)) ∧
      t₁.out.toList.tail = t₂.out.toList.tail

/-- ADDR (43_address_derivation.md R170): net ‖ HASH160(sec) ‖ checksum in OUT[0] to OUT[24], 0 beyond, OUTLEN 25; a word whose
byte names no network is illegal (R174). -/
def Obligations.AddrWritesThePayload : Prop :=
  (∀ w : Word, w.extractLsb' 26 6 = 0x20#6 →
    (w &&& 0xFFC7FF00#32 = 0x80000000#32 →
      (w.extractLsb' 0 8 = 0x00#8 → ExecutesAs w (.addr (raOf w) .mainnet)) ∧
      (w.extractLsb' 0 8 = 0x6F#8 → ExecutesAs w (.addr (raOf w) .testnet)) ∧
      (w.extractLsb' 0 8 ≠ 0x00#8 → w.extractLsb' 0 8 ≠ 0x6F#8 → IllegalWhenExecuted w)) ∧
    (w &&& 0xFFC7FF00#32 ≠ 0x80000000#32 → IllegalWhenExecuted w)) ∧
  ∀ (s : State) (p : Pending) (ra : Reg) (net : Network), s.pend = some p → ra.val % 2 = 0 →
    (∀ x y, s.fe[ra.val] = some x → s.fe[(ra + 1).val] = some y → x.tag = y.tag →
      ∃ (o : Vector Byte 33) (body : ByteString),
        body = bodyOf (match net with
          | .mainnet => 0x00#8
          | .testnet => 0x6F#8) (secOf x.value.val y.value.val) ∧
        o.toList = body ++ checksumOf body ++ List.replicate 8 0x00#8 ∧
        exec (.addr ra net) s = .next { s with out := o, outlen := 25, pend := none }) ∧
    (s.fe[ra.val] = none ∨ s.fe[(ra + 1).val] = none → exec (.addr ra net) s = .next (latched s 2 p.cmd)) ∧
    (∀ x y, s.fe[ra.val] = some x → s.fe[(ra + 1).val] = some y → x.tag ≠ y.tag →
      exec (.addr ra net) s = .next (latched s 3 p.cmd))

/-! ### Laws of the field commands -/

/-- The laws of 40_field_arithmetic.md R112, run as commands one after the other: a − a = 0; a · inv(a) = 1; (one / a) · a = 1;
(a / b) · b = a. They rest on P being prime. The quotient goes to a register that does not hold the operand read again; FDIV and FINV in
place are in FdivMultipliesByThePower and FinvRaisesToThePower. -/
def Obligations.FieldLawsHoldOfTheCommands : Prop :=
  (∀ (s : State) (p : Pending) (rd ra : Reg) (a : Elem), s.pend = some p → s.fe[ra.val] = some a →
    ∃ (t : State) (z : Residue), z.val = 0 ∧ exec (.fsub rd ra ra) s = .next t ∧ t.fe[rd.val] = some ⟨z, a.tag⟩) ∧
  (∀ (s : State) (p q : Pending) (rd re ra : Reg) (a : Elem), s.pend = some p → s.fe[ra.val] = some a → a.value.val ≠ 0 →
    rd ≠ ra →
    ∃ (t u : State) (v : Residue), v.val = 1 ∧ exec (.finv rd ra) s = .next t ∧
      exec (.fmul re ra rd) { t with pend := some q } = .next u ∧ u.fe[re.val] = some ⟨v, a.tag⟩) ∧
  (∀ (s : State) (p q : Pending) (rd re ra ro : Reg) (a one : Elem), s.pend = some p → s.fe[ra.val] = some a →
    a.value.val ≠ 0 → s.fe[ro.val] = some one → one.value.val = 1 → one.tag = a.tag → rd ≠ ra →
    ∃ (t u : State) (v : Residue), v.val = 1 ∧ exec (.fdiv rd ro ra) s = .next t ∧
      exec (.fmul re ra rd) { t with pend := some q } = .next u ∧ u.fe[re.val] = some ⟨v, a.tag⟩) ∧
  (∀ (s : State) (p q : Pending) (rd re ra rb : Reg) (a b : Elem), s.pend = some p → s.fe[ra.val] = some a →
    s.fe[rb.val] = some b → a.tag = b.tag → b.value.val ≠ 0 → rd ≠ rb →
    ∃ t u : State, exec (.fdiv rd ra rb) s = .next t ∧ exec (.fmul re rd rb) { t with pend := some q } = .next u ∧
      u.fe[re.val] = some a)

/-! ### Frames and errors of all commands -/

/-- What a command changes when it answers a next state, failing or not: FE only at its destinations, DOUT and DTAG only by FST, EQ only
by FEQ, ONC only by PONC, OUT and OUTLEN only by PSER and ADDR, and never DIN, DROP or the environment's fields (10_state.md R23;
40_field_arithmetic.md R114 for the field commands). -/
def Obligations.CommandsChangeOnlyTheirDestinations : Prop :=
  ∀ (i : Instr) (s t : State), exec i s = .next t →
    (∀ r : Reg, isDestination r i = false → t.fe[r.val] = s.fe[r.val]) ∧
    (¬ writesDout i → t.dout = s.dout ∧ t.dtag = s.dtag) ∧ (¬ writesEq i → t.eq = s.eq) ∧ (¬ writesOnc i → t.onc = s.onc) ∧
    (¬ writesOut i → t.out = s.out ∧ t.outlen = s.outlen) ∧
    t.din = s.din ∧ t.drop = s.drop ∧ t.turns = s.turns ∧ t.hostReads = s.hostReads

/-- A command reads only its sources and the pending latch: run at two states that agree on those, it fails with one cause at both or
completes at both with one result (10_state.md R23; for ADDR "no hidden state", 43_address_derivation.md R176). That a completing
command latches no error is in FirstCauseInThePriorityOrder. -/
def Obligations.ResultsDependOnlyOnTheSources : Prop :=
  ∀ (i : Instr) (s₁ s₂ t₁ : State) (p : Pending), i.wf = true → s₁.pend = some p → s₂.pend = some p →
    (∀ r ∈ sources i, s₁.fe[r.val] = s₂.fe[r.val]) → exec i s₁ = .next t₁ →
    ∃ t₂, exec i s₂ = .next t₂ ∧
      ((∃ c, t₁ = latched s₁ c p.cmd ∧ t₂ = latched s₂ c p.cmd) ∨
        ((∀ r : Reg, isDestination r i = true → t₁.fe[r.val] = t₂.fe[r.val]) ∧
          (writesDout i → t₁.dout = t₂.dout ∧ t₁.dtag = t₂.dtag) ∧ (writesEq i → t₁.eq = t₂.eq) ∧
          (writesOnc i → t₁.onc = t₂.onc) ∧ (writesOut i → t₁.out = t₂.out ∧ t₁.outlen = t₂.outlen)))

/-- One command reports at most one cause, the first of 60_exceptions.md R211: decode, an unwritten source, a tag mismatch, a zero
divisor; where none applies it completes and latches nothing. -/
def Obligations.FirstCauseInThePriorityOrder : Prop :=
  ∀ (s : State) (rest : List Turn) (p : Pending), EngineNext s rest → s.pend = some p →
    (∀ r, decode p.cmd = .error r → step s = .next (latched { s with turns := rest } 1 p.cmd)) ∧
    (∀ i, decode p.cmd = .ok i → firstCause s i ≠ 0 →
      step s = .next (latched { s with turns := rest } (firstCause s i) p.cmd)) ∧
    (∀ i, decode p.cmd = .ok i → firstCause s i = 0 →
      ∃ t, step s = .next t ∧ t.err = s.err ∧ t.errcause = s.errcause ∧ t.errinfo = s.errinfo ∧ t.pend = none)

/-- Errors are precise: the ENGINE step that latches an error changes exactly the four fields of 60_exceptions.md R203, with a
cause of R200 and the command's word (R207). -/
def Obligations.FailedCommandChangesNothingElse : Prop :=
  ∀ (s t : State) (rest : List Turn) (p : Pending), EngineNext s rest → s.pend = some p → s.err = false →
    step s = .next t → t.err = true →
    ∃ c : BitVec 4, (c = 1 ∨ c = 2 ∨ c = 3 ∨ c = 4) ∧ t = latched { s with turns := rest } c p.cmd

/-- Whole machine: EQ changes only in an ENGINE step of an FEQ, and ONC only in one of a PONC, but for a reset
(10_state.md R27). -/
def Obligations.FlagsChangeOnlyByFeqAndPonc : Prop :=
  ∀ s t : State, step s = .next t → firstTurnNot resets s →
    (t.eq ≠ s.eq → ∃ p ra rb, s.pend = some p ∧ decode p.cmd = .ok (.feq ra rb)) ∧
    (t.onc ≠ s.onc → ∃ p ra, s.pend = some p ∧ decode p.cmd = .ok (.ponc ra))

/-- While an error is latched nothing runs: with no command pending (60_exceptions.md R216), every step but a CTRL clear or a reset keeps
all results, flags, error fields and the empty PEND; a CMD write only sets DROP (R214). -/
def Obligations.LatchedErrorStopsTheSequence : Prop :=
  ∀ s t : State, s.err = true → s.pend = none → step s = .next t → firstTurnNot resets s → firstTurnNot clears s →
    keepsResults s t ∧
    ∀ (w : Word) (rest : List Turn), s.turns = .host (.write 0x000 w) :: rest → t = { s with drop := true, turns := rest }

/-! ### The host window -/

/-- STATUS, read at 0x004 (10_state.md R28): each field at its bits, the reserved bits 0. -/
def Obligations.StatusReadsItsFields : Prop :=
  ∀ s : State,
    (s.hostRead 0x004).getLsbD 0 = s.pend.isSome ∧ (s.hostRead 0x004).getLsbD 1 = s.err ∧
    (s.hostRead 0x004).getLsbD 2 = s.drop ∧ (s.hostRead 0x004).getLsbD 3 = s.eq ∧ (s.hostRead 0x004).getLsbD 4 = s.onc ∧
    (s.hostRead 0x004).extractLsb' 5 3 = 0#3 ∧ (s.hostRead 0x004).extractLsb' 8 4 = s.errcause ∧
    (s.hostRead 0x004).extractLsb' 12 4 = 0#4 ∧ (s.hostRead 0x004).extractLsb' 16 6 = s.outlen ∧
    (s.hostRead 0x004).extractLsb' 22 10 = 0#10

/-- Single-word and multi-word registers read at the offsets of 20_memory.md R52: ERRINFO whole, DTAG zero-extended (10_state.md R31),
word k of DIN and DOUT as bits [255-32k : 224-32k] (20_memory.md R54). -/
def Obligations.DataRegistersReadAtTheirOffsets : Prop :=
  ∀ s : State,
    s.hostRead 0x00C = s.errinfo ∧ (s.hostRead 0x010).toNat = s.dtag.toNat ∧
    ∀ k : Nat, k ≤ 7 →
      (s.hostRead (BitVec.ofNat 12 (0x020 + 4 * k))).toNat = s.din.toNat / 2 ^ (224 - 32 * k) % 2 ^ 32 ∧
      (s.hostRead (BitVec.ofNat 12 (0x040 + 4 * k))).toNat = s.dout.toNat / 2 ^ (224 - 32 * k) % 2 ^ 32

/-- The constant windows hold P, 7, Gx and Gy in big-endian word order (10_state.md R36, 20_memory.md R52, R54), and no step changes
what they read (10_state.md R37). -/
def Obligations.ConstantWindowsNeverChange : Prop :=
  (∀ (s : State) (k : Nat), k ≤ 7 →
    (s.hostRead (BitVec.ofNat 12 (0x0A0 + 4 * k))).toNat
      = 0xFFFFFFFFFFFFFFFFFFFFFFFFFFFFFFFFFFFFFFFFFFFFFFFFFFFFFFFEFFFFFC2F / 2 ^ (224 - 32 * k) % 2 ^ 32 ∧
    (s.hostRead (BitVec.ofNat 12 (0x0C0 + 4 * k))).toNat = 7 / 2 ^ (224 - 32 * k) % 2 ^ 32 ∧
    (s.hostRead (BitVec.ofNat 12 (0x0E0 + 4 * k))).toNat
      = 0x79BE667EF9DCBBAC55A06295CE870B07029BFCDB2DCE28D959F2815B16F81798 / 2 ^ (224 - 32 * k) % 2 ^ 32 ∧
    (s.hostRead (BitVec.ofNat 12 (0x100 + 4 * k))).toNat
      = 0x483ADA7726A3C4655DA4FBFC0E1108A8FD17B448A68554199C47D08FFB10D4B8 / 2 ^ (224 - 32 * k) % 2 ^ 32) ∧
  (∀ (s t : State) (off : Offset), step s = .next t → 0x0A0 ≤ off.toNat → off.toNat ≤ 0x11C →
    t.hostRead off = s.hostRead off)

/-- Unlisted offsets read 0 and ignore writes, a write to a read-only register is ignored, a read of CMD or CTRL is 0
(20_memory.md R53), at every aligned offset. -/
def Obligations.UnmappedAndWrongDirectionAccesses : Prop :=
  (∀ (s : State) (off : Offset) (w : Word) (rest : List Turn), off.toNat % 4 = 0 →
    ((0x014 ≤ off.toNat ∧ off.toNat ≤ 0x01C) ∨ (0x084 ≤ off.toNat ∧ off.toNat ≤ 0x09C) ∨ 0x120 ≤ off.toNat) →
    s.hostRead off = 0 ∧ (s.turns = .host (.write off w) :: rest → step s = .next { s with turns := rest })) ∧
  (∀ (s : State) (off : Offset) (w : Word) (rest : List Turn), off.toNat % 4 = 0 →
    (off.toNat = 0x004 ∨ off.toNat = 0x00C ∨ off.toNat = 0x010 ∨ (0x040 ≤ off.toNat ∧ off.toNat ≤ 0x080) ∨
      (0x0A0 ≤ off.toNat ∧ off.toNat ≤ 0x11C)) →
    s.turns = .host (.write off w) :: rest → step s = .next { s with turns := rest }) ∧
  (∀ s : State, s.hostRead 0x000 = 0 ∧ s.hostRead 0x008 = 0)

/-- A word written to DIN reads back, the other seven words are as before, and nothing but DIN changes (10_state.md R33,
20_memory.md R54). -/
def Obligations.DinWordsWriteAndReadBack : Prop :=
  ∀ (s : State) (k : Nat) (w : Word) (rest : List Turn), k ≤ 7 →
    s.turns = .host (.write (BitVec.ofNat 12 (0x020 + 4 * k)) w) :: rest →
    ∃ (t : State) (d : Raw256), step s = .next t ∧ t = { s with din := d, turns := rest } ∧
      ∀ j : Nat, j ≤ 7 → t.hostRead (BitVec.ofNat 12 (0x020 + 4 * j))
        = (if j = k then w else s.hostRead (BitVec.ofNat 12 (0x020 + 4 * j)))

/-- The eight words of a 256-bit register in offset order give its value: v is the sum of word(v, k) · 2^(224-32k)
(20_memory.md R54), which is what STOREFE computes (30_encoding.md R89). -/
def Obligations.WordsInOffsetOrderGiveTheValue : Prop :=
  ∀ s : State,
    ((List.range 8).map fun k => (s.hostRead (BitVec.ofNat 12 (0x040 + 4 * k))).toNat * 2 ^ (224 - 32 * k)).sum = s.dout.toNat ∧
    valueOfWords ((List.range 8).map fun k => s.hostRead (BitVec.ofNat 12 (0x040 + 4 * k))) = s.dout.toNat

/-- Word k of OUT holds OUT[4k] in bits 31:24 to OUT[4k+3] in bits 7:0, a byte index above 32 reading 0, for 0 ≤ k ≤ 8
(20_memory.md R55). -/
def Obligations.OutWordsPackBigEndian : Prop :=
  ∀ (s : State) (k j : Nat), k ≤ 8 → j ≤ 3 →
    (s.hostRead (BitVec.ofNat 12 (0x060 + 4 * k))).extractLsb' (24 - 8 * j) 8 = (s.out.toList).getD (4 * k + j) 0x00#8

/-- A CMD write: accepted exactly when BUSY = 0 and ERR = 0, with the word, legal or not, and DIN as it is; otherwise dropped, and only
DROP is set; an illegal word raises IllegalCommand when it is executed (20_memory.md R58). -/
def Obligations.CmdWriteIsAcceptedOrDropped : Prop :=
  ∀ (s : State) (w : Word) (rest : List Turn), s.turns = .host (.write 0x000 w) :: rest →
    (s.pend = none → s.err = false → step s = .next { s with pend := some ⟨w, s.din⟩, turns := rest }) ∧
    (s.pend ≠ none ∨ s.err = true → step s = .next { s with drop := true, turns := rest }) ∧
    (∀ r, decode w = .error r → IllegalWhenExecuted w)

/-- A DIN write is allowed at any time, also while a command is pending, and never affects the pending command, legal or not: the ENGINE's
step with the new DIN is the one with the old, but for DIN itself (20_memory.md R59). -/
def Obligations.DinWriteNeverAffectsThePendingCommand : Prop :=
  ∀ (s : State) (k : Nat) (w : Word) (rest : List Turn), k ≤ 7 →
    s.turns = .host (.write (BitVec.ofNat 12 (0x020 + 4 * k)) w) :: rest →
    ∃ d, step s = .next { s with din := d, turns := rest } ∧
      (s.pend ≠ none → ∃ u, step { s with turns := [] } = .next u ∧ step { s with din := d, turns := [] } = .next { u with din := d })

/-- CTRL.CLR without SRST clears ERR, ERRCAUSE, ERRINFO and DROP and nothing else; a pending command is not affected and may still raise
an error; afterwards a CMD write at an idle core is accepted (60_exceptions.md R215). -/
def Obligations.ClrClearsTheErrorState : Prop :=
  ∀ (s : State) (w : Word) (rest : List Turn), s.turns = .host (.write 0x008 w) :: rest → w.getLsbD 0 = true →
    w.getLsbD 1 = false →
    ∃ t, step s = .next t ∧
      t = { s with err := false, errcause := 0, errinfo := 0, drop := false, turns := rest } ∧
      (∀ (p : Pending) (r : Illegal), s.pend = some p → decode p.cmd = .error r →
        step { t with turns := [] } = .next (latched { t with turns := [] } 1 p.cmd)) ∧
      ∀ (cmd : Word) (later : List Turn), s.pend = none →
        step { t with turns := .host (.write 0x000 cmd) :: later } = .next { t with pend := some ⟨cmd, t.din⟩, turns := later }

/-- A CTRL write acts only by bits 0 and 1: with both 0 it has no effect (10_state.md R29). -/
def Obligations.OtherCtrlBitsAreIgnored : Prop :=
  ∀ (s : State) (w : Word) (rest : List Turn), s.turns = .host (.write 0x008 w) :: rest → w.getLsbD 0 = false →
    w.getLsbD 1 = false → step s = .next { s with turns := rest }

/-- A host read returns its word to the HOST and changes no state of BAG-CORE, so a second read returns the same word
(20_memory.md R61). -/
def Obligations.HostReadsHaveNoSideEffect : Prop :=
  ∀ (s : State) (off : Offset) (rest : List Turn), off.toNat % 4 = 0 → s.turns = .host (.read off) :: rest →
    ∃ t, step s = .next t ∧ t = { s with turns := rest, hostReads := s.hostRead off :: s.hostReads } ∧
      ∀ off', t.hostRead off' = s.hostRead off'

/-- While BUSY = 1 every host read returns what it would without the pending command, but for STATUS, which differs in BUSY alone
(20_memory.md R60). -/
def Obligations.BusyReadsShowTheStateBefore : Prop :=
  ∀ (s : State) (off : Offset), off.toNat % 4 = 0 →
    (off.toNat ≠ 0x004 → s.hostRead off = ({ s with pend := none } : State).hostRead off) ∧
    (∀ j : Nat, 0 < j → (s.hostRead 0x004).getLsbD j = (({ s with pend := none } : State).hostRead 0x004).getLsbD j)

/-- An access of another width than 32 bits, or at an offset that is no multiple of 4, has no step: a refusal
(20_memory.md R51). An access inside the contract has one. -/
def Obligations.AccessOutsideTheContractIsRefused : Prop :=
  ∀ (s : State) (a : HostAccess) (rest : List Turn), s.turns = .host a :: rest →
    (inContract a = false → step s = .refused .accessOutsideContract) ∧ (inContract a = true → ∃ t, step s = .next t)

/-- BASE is a multiple of 4096, and the window's offsets are the host addresses from BASE to BASE + 4095 and no other
(20_memory.md R50). -/
def Obligations.WindowStandsAtBase : Prop :=
  Config.base % 4096 = 0 ∧ (∀ off : Offset, offsetOfAddress (Config.base + off.toNat) = some off) ∧
  ∀ addr : Nat, addr < Config.base ∨ Config.base + 4096 ≤ addr → offsetOfAddress addr = none

/-! ### Reset and invariants -/

/-- After the reset input, from any state, every piece of BAG-CORE's state holds the value of 10_state.md R39; the constant windows, CMD
and CTRL read as ever. -/
def Obligations.ResetInputGivesTheResetTable : Prop :=
  ∀ (s : State) (rest : List Turn), s.turns = .resetInput :: rest →
    ∃ t, step s = .next t ∧ (∀ r : Reg, t.fe[r.val] = none) ∧ t.pend = none ∧ t.err = false ∧ t.drop = false ∧
      t.eq = false ∧ t.onc = false ∧ t.errcause = 0 ∧ t.outlen = 0 ∧ t.errinfo = 0 ∧ t.dtag = 0 ∧ t.din = 0 ∧ t.dout = 0 ∧
      (∀ b ∈ t.out.toList, b = 0x00#8) ∧ t.hostRead 0x000 = 0 ∧ t.hostRead 0x008 = 0 ∧
      (∀ off : Offset, 0x0A0 ≤ off.toNat → off.toNat ≤ 0x11C → t.hostRead off = s.hostRead off)

/-- A CTRL write with bit 1 set has the effect of the reset input, whatever bit 0 is, and a pending command is discarded with none of its
effects (70_reset_and_hazards.md R240, R241). -/
def Obligations.SrstIsTheResetInput : Prop :=
  ∀ (s s' : State) (w : Word) (rest : List Turn), w.getLsbD 1 = true → s.turns = .host (.write 0x008 w) :: rest →
    s' = { s with turns := .resetInput :: rest } →
    step s = step s' ∧ ∃ t, step s = .next t ∧ t = { State.reset with turns := rest, hostReads := s.hostReads }

/-- The reset state is safe. -/
def Obligations.ResetStateIsSafe : Prop := State.reset.Inv ∧ ErrinfoFits State.reset

/-- Every step keeps the safe states: ERRCAUSE and ERRINFO are 0 with no error latched; with one the cause is one of four and no command
is pending; OUTLEN is 0, 25 or 33, OUT is 0 beyond it and starts with a legal byte; DOUT is below P (10_state.md R28, R30, R34, R35,
60_exceptions.md R216). -/
def Obligations.StepKeepsTheSafeStates : Prop :=
  ∀ s t : State, s.Inv → step s = .next t → t.Inv

/-- Every step keeps this: the word in ERRINFO is one that can raise the cause in ERRCAUSE, by the table of 60_exceptions.md R200 (so
no error ever names an FLD or an FLDC but as IllegalCommand). -/
def Obligations.ErrinfoAlwaysFitsTheCause : Prop :=
  ∀ s t : State, ErrinfoFits s → step s = .next t → ErrinfoFits t

/-- Only host writes change DIN, but for a reset (10_state.md R33). -/
def Obligations.OnlyTheHostChangesDin : Prop :=
  ∀ s t : State, step s = .next t → firstTurnNot writesDin s → firstTurnNot resets s → t.din = s.din

/-- DROP is sticky: once set it stays until a CTRL clear or a reset (10_state.md R28). -/
def Obligations.DropIsSticky : Prop :=
  ∀ s t : State, step s = .next t → s.drop = true → firstTurnNot clears s → firstTurnNot resets s → t.drop = true

/-- In every state of an execution from reset, whatever turns the environment brings, BUSY and ERR are never both 1
(60_exceptions.md R214, R216). -/
def Obligations.BusyAndErrNeverTogether : Prop :=
  ∀ s : State, Reachable s → ¬ (s.pend.isSome = true ∧ s.err = true)
end

