-- ==== Sys2Proof/Laws/Arith.lean ====
section
/-! SUPPORT. Laws of the integer side of the field primitives: reduction mod P, and the power that square-and-multiply computes. -/

namespace Sys2Proof.Machine

/-- The hexadecimal form of P, as DIN of 95_test_vectors.md F4 has it (log 7). -/
theorem P_eq : Config.P = 0xFFFFFFFFFFFFFFFFFFFFFFFFFFFFFFFFFFFFFFFFFFFFFFFFFFFFFFFEFFFFFC2F := by decide

theorem one_lt_P : 1 < Config.P := by decide

theorem P_lt : Config.P < 2 ^ 256 := by decide

theorem P_odd : Config.P % 2 = 1 := by decide

/-- The value of a reduced integer, over the integers. -/
theorem residue_val_int (z : Int) : ((residue z).val : Int) = z % (Config.P : Int) := by
  have hP : (Config.P : Int) ≠ 0 := by exact_mod_cast ne_of_gt P_pos
  exact Int.toNat_of_nonneg (Int.emod_nonneg z hP)

/-- The value of a reduced natural number. -/
@[simp] theorem residue_val_nat (n : Nat) : (residue (n : Int)).val = n % Config.P := by
  have h := residue_val_int (n : Int)
  exact_mod_cast h

theorem residue_add_val (a b : Residue) : (residue ((a.val : Int) + b.val)).val = (a.val + b.val) % Config.P := by
  exact_mod_cast residue_val_nat (a.val + b.val)

theorem residue_mul_val (a b : Residue) : (residue ((a.val : Int) * b.val)).val = a.val * b.val % Config.P := by
  exact_mod_cast residue_val_nat (a.val * b.val)

/-- A residue is its own reduction. -/
theorem residue_self (a : Residue) : residue (a.val : Int) = a :=
  Fin.ext ((residue_val_nat a.val).trans (Nat.mod_eq_of_lt a.isLt))

/-- Square and multiply over `fuel` bits is the accumulator times the power. -/
theorem powModLoop_eq (m fuel b acc e : Nat) (he : e < 2 ^ fuel) (hacc : acc < m) :
    powModLoop m fuel b acc e = acc * b ^ e % m := by
  induction fuel generalizing b acc e with
  | zero =>
    have : e = 0 := by simpa using he
    simp [powModLoop, this, Nat.mod_eq_of_lt hacc]
  | succ fuel ih =>
    have hm : 0 < m := by omega
    have hhalf : e / 2 < 2 ^ fuel := by rw [pow_succ] at he; omega
    have hsq : (b * b % m) ^ (e / 2) ≡ b ^ (2 * (e / 2)) [MOD m] := by
      rw [pow_mul, pow_two]
      exact (Nat.mod_modEq _ _).pow _
    rw [powModLoop]
    by_cases hodd : e % 2 = 1
    · rw [if_pos hodd, ih _ _ _ hhalf (Nat.mod_lt _ hm)]
      have hsplit : acc * b ^ e = acc * b * b ^ (2 * (e / 2)) := by
        conv_lhs => rw [show e = 2 * (e / 2) + 1 by omega, pow_succ]
        ring
      rw [hsplit]
      exact (Nat.mod_modEq (acc * b) m).mul hsq
    · rw [if_neg hodd, ih _ _ _ hhalf hacc]
      have hsplit : e = 2 * (e / 2) := by omega
      conv_rhs => rw [hsplit]
      exact (Nat.ModEq.refl acc).mul hsq

/-- `powMod` is modular exponentiation for every exponent below 2^256. -/
theorem powMod_eq (m b e : Nat) (hm : 1 < m) (he : e < 2 ^ 256) : powMod m b e = b ^ e % m := by
  rw [powMod, powModLoop_eq m 256 b 1 e he hm, one_mul]

/-- The Fermat inverse is the power b^(P-2) mod P (40_field_arithmetic.md R110). -/
theorem inverse_val (b : Residue) : (inverse b).val = b.val ^ (Config.P - 2) % Config.P := by
  rw [inverse, residue_val_nat, powMod_eq _ _ _ one_lt_P (by have := P_lt; omega), Nat.mod_mod]

end Sys2Proof.Machine
end

