-- ==== Sys2Proof/Laws/Bytes.lean ====
section
/-! SUPPORT. Laws of the byte and word order: the words of a 256-bit register, written and read, and the bytes of OUT. -/

namespace Sys2Proof.Machine

/-- Word k of a value is the quotient of the value (20_memory.md R54). -/
theorem wordOf_toNat (v : Raw256) (k : Nat) : (wordOf v k).toNat = v.toNat / 2 ^ (224 - 32 * k) % 2 ^ 32 := by
  simp [wordOf, BitVec.extractLsb'_toNat, Nat.shiftRight_eq_div_pow]

theorem ones32_getLsbD (j : Nat) : (0xFFFFFFFF#256).getLsbD j = decide (j < 32) := by
  have h : (0xFFFFFFFF#256) = (BitVec.allOnes 32).setWidth 256 := by decide
  rw [h, BitVec.getLsbD_setWidth, BitVec.getLsbD_allOnes]
  simp
  omega

/-- A bit of a value with one word replaced. -/
theorem setWord_getLsbD (v : Raw256) (k : Nat) (w : Word) (i : Nat) :
    (setWord v k w).getLsbD i =
      (decide (i < 256) && if 224 - 32 * k ≤ i ∧ i < 224 - 32 * k + 32 then w.getLsbD (i - (224 - 32 * k)) else v.getLsbD i) := by
  unfold setWord
  generalize 224 - 32 * k = n
  by_cases hi : i < 256
  · simp only [BitVec.getLsbD_or, BitVec.getLsbD_and, BitVec.getLsbD_not, BitVec.getLsbD_shiftLeft, ones32_getLsbD,
      BitVec.getLsbD_setWidth, hi, decide_true, Bool.true_and]
    by_cases hlo : i < n
    · simp [hlo, Nat.not_le_of_lt hlo]
    · have hle : n ≤ i := by omega
      have hlt : i - n < 256 := by omega
      by_cases hhi : i - n < 32
      · have hup : i < n + 32 := by omega
        simp [hlo, hle, hlt, hhi, hup]
      · have hup : ¬ i < n + 32 := by omega
        have hz : w.getLsbD (i - n) = false := BitVec.getLsbD_of_ge _ _ (Nat.le_of_not_lt hhi)
        simp [hlo, hhi, hup, hz]
  · simp [hi]

/-- A bit of a word of a value. -/
theorem wordOf_getLsbD (v : Raw256) (k i : Nat) : (wordOf v k).getLsbD i = (decide (i < 32) && v.getLsbD (224 - 32 * k + i)) := by
  simp [wordOf, BitVec.getLsbD_extractLsb']

/-- Read after write, of the same word and of another. -/
theorem wordOf_setWord (v : Raw256) (j k : Nat) (w : Word) (hj : j ≤ 7) (hk : k ≤ 7) :
    wordOf (setWord v k w) j = if j = k then w else wordOf v j := by
  apply BitVec.eq_of_getLsbD_eq
  intro i hi
  rw [wordOf_getLsbD, setWord_getLsbD]
  by_cases h : j = k
  · subst h
    have h1 : 224 - 32 * j + i < 256 := by omega
    simp [hi, h1]
  · have h1 : 224 - 32 * j + i < 256 := by omega
    have h2 : ¬ (224 - 32 * k ≤ 224 - 32 * j + i ∧ 224 - 32 * j + i < 224 - 32 * k + 32) := by omega
    rw [if_neg h2, if_neg h, wordOf_getLsbD]
    simp [h1]

/-- OUT after a write holds the bytes, then 0 (10_state.md R35). -/
theorem outOf_toList (b : ByteString) (h : b.length ≤ 33) : (outOf b).toList = b ++ List.replicate (33 - b.length) 0 := by
  rw [outOf, Vector.toList_ofFn]
  apply List.ext_getElem
  · simp
    omega
  · intro i h1 h2
    simp only [List.getElem_ofFn, List.getElem_append]
    split
    · simp [*]
    · rw [List.getD_eq_getElem?_getD, List.getElem?_eq_none (by omega)]
      simp

/-- Byte i of OUT, by its list. -/
theorem outByte_eq_getD (out : Vector Byte 33) (i : Nat) : outByte out i = out.toList.getD i 0 := by
  unfold outByte
  split
  · rw [List.getD_eq_getElem _ _ (by simpa using ‹_›)]
    simp
  · rename_i h
    rw [List.getD_eq_default _ _ (by simpa using Nat.le_of_not_lt h)]

@[simp] theorem be_length (n v : Nat) : (be n v).length = n := by simp [be]

/-- Byte i of the big-endian encoding (00_scope.md R14). -/
theorem be_getElem (n v i : Nat) (h : i < (be n v).length) : (be n v)[i] = BitVec.ofNat 8 (v / 256 ^ (n - 1 - i) % 256) := by
  simp only [be, List.getElem_map, List.getElem_range]
  apply BitVec.eq_of_toNat_eq
  simp

end Sys2Proof.Machine
end

