-- ==== Sys2Proof/Laws/State.lean ====
section
/-! SUPPORT. One lemma per field per update of the state: what each named operation leaves in each field. -/

namespace Sys2Proof.Machine

/-! ### writeFe -/

@[simp] theorem writeFe_fe (s : State) (i : Reg) (e : Elem) : (s.writeFe i e).fe = s.fe.set i.val (some e) := rfl
@[simp] theorem writeFe_pend (s : State) (i : Reg) (e : Elem) : (s.writeFe i e).pend = s.pend := rfl
@[simp] theorem writeFe_err (s : State) (i : Reg) (e : Elem) : (s.writeFe i e).err = s.err := rfl
@[simp] theorem writeFe_drop (s : State) (i : Reg) (e : Elem) : (s.writeFe i e).drop = s.drop := rfl
@[simp] theorem writeFe_eq (s : State) (i : Reg) (e : Elem) : (s.writeFe i e).eq = s.eq := rfl
@[simp] theorem writeFe_onc (s : State) (i : Reg) (e : Elem) : (s.writeFe i e).onc = s.onc := rfl
@[simp] theorem writeFe_errcause (s : State) (i : Reg) (e : Elem) : (s.writeFe i e).errcause = s.errcause := rfl
@[simp] theorem writeFe_outlen (s : State) (i : Reg) (e : Elem) : (s.writeFe i e).outlen = s.outlen := rfl
@[simp] theorem writeFe_errinfo (s : State) (i : Reg) (e : Elem) : (s.writeFe i e).errinfo = s.errinfo := rfl
@[simp] theorem writeFe_dtag (s : State) (i : Reg) (e : Elem) : (s.writeFe i e).dtag = s.dtag := rfl
@[simp] theorem writeFe_din (s : State) (i : Reg) (e : Elem) : (s.writeFe i e).din = s.din := rfl
@[simp] theorem writeFe_dout (s : State) (i : Reg) (e : Elem) : (s.writeFe i e).dout = s.dout := rfl
@[simp] theorem writeFe_out (s : State) (i : Reg) (e : Elem) : (s.writeFe i e).out = s.out := rfl
@[simp] theorem writeFe_turns (s : State) (i : Reg) (e : Elem) : (s.writeFe i e).turns = s.turns := rfl
@[simp] theorem writeFe_hostReads (s : State) (i : Reg) (e : Elem) : (s.writeFe i e).hostReads = s.hostReads := rfl

/-! ### writeDout -/

@[simp] theorem writeDout_fe (s : State) (e : Elem) : (s.writeDout e).fe = s.fe := rfl
@[simp] theorem writeDout_pend (s : State) (e : Elem) : (s.writeDout e).pend = s.pend := rfl
@[simp] theorem writeDout_err (s : State) (e : Elem) : (s.writeDout e).err = s.err := rfl
@[simp] theorem writeDout_drop (s : State) (e : Elem) : (s.writeDout e).drop = s.drop := rfl
@[simp] theorem writeDout_eq (s : State) (e : Elem) : (s.writeDout e).eq = s.eq := rfl
@[simp] theorem writeDout_onc (s : State) (e : Elem) : (s.writeDout e).onc = s.onc := rfl
@[simp] theorem writeDout_errcause (s : State) (e : Elem) : (s.writeDout e).errcause = s.errcause := rfl
@[simp] theorem writeDout_outlen (s : State) (e : Elem) : (s.writeDout e).outlen = s.outlen := rfl
@[simp] theorem writeDout_errinfo (s : State) (e : Elem) : (s.writeDout e).errinfo = s.errinfo := rfl
@[simp] theorem writeDout_dtag (s : State) (e : Elem) : (s.writeDout e).dtag = e.tag := rfl
@[simp] theorem writeDout_din (s : State) (e : Elem) : (s.writeDout e).din = s.din := rfl
@[simp] theorem writeDout_dout (s : State) (e : Elem) : (s.writeDout e).dout = BitVec.ofNat 256 e.value.val := rfl
@[simp] theorem writeDout_out (s : State) (e : Elem) : (s.writeDout e).out = s.out := rfl
@[simp] theorem writeDout_turns (s : State) (e : Elem) : (s.writeDout e).turns = s.turns := rfl
@[simp] theorem writeDout_hostReads (s : State) (e : Elem) : (s.writeDout e).hostReads = s.hostReads := rfl

/-! ### writeOut -/

@[simp] theorem writeOut_fe (s : State) (b : ByteString) : (s.writeOut b).fe = s.fe := rfl
@[simp] theorem writeOut_pend (s : State) (b : ByteString) : (s.writeOut b).pend = s.pend := rfl
@[simp] theorem writeOut_err (s : State) (b : ByteString) : (s.writeOut b).err = s.err := rfl
@[simp] theorem writeOut_drop (s : State) (b : ByteString) : (s.writeOut b).drop = s.drop := rfl
@[simp] theorem writeOut_eq (s : State) (b : ByteString) : (s.writeOut b).eq = s.eq := rfl
@[simp] theorem writeOut_onc (s : State) (b : ByteString) : (s.writeOut b).onc = s.onc := rfl
@[simp] theorem writeOut_errcause (s : State) (b : ByteString) : (s.writeOut b).errcause = s.errcause := rfl
@[simp] theorem writeOut_outlen (s : State) (b : ByteString) : (s.writeOut b).outlen = BitVec.ofNat 6 b.length := rfl
@[simp] theorem writeOut_errinfo (s : State) (b : ByteString) : (s.writeOut b).errinfo = s.errinfo := rfl
@[simp] theorem writeOut_dtag (s : State) (b : ByteString) : (s.writeOut b).dtag = s.dtag := rfl
@[simp] theorem writeOut_din (s : State) (b : ByteString) : (s.writeOut b).din = s.din := rfl
@[simp] theorem writeOut_dout (s : State) (b : ByteString) : (s.writeOut b).dout = s.dout := rfl
@[simp] theorem writeOut_out (s : State) (b : ByteString) : (s.writeOut b).out = outOf b := rfl
@[simp] theorem writeOut_turns (s : State) (b : ByteString) : (s.writeOut b).turns = s.turns := rfl
@[simp] theorem writeOut_hostReads (s : State) (b : ByteString) : (s.writeOut b).hostReads = s.hostReads := rfl

/-! ### writeEq -/

@[simp] theorem writeEq_fe (s : State) (v : Bool) : (s.writeEq v).fe = s.fe := rfl
@[simp] theorem writeEq_pend (s : State) (v : Bool) : (s.writeEq v).pend = s.pend := rfl
@[simp] theorem writeEq_err (s : State) (v : Bool) : (s.writeEq v).err = s.err := rfl
@[simp] theorem writeEq_drop (s : State) (v : Bool) : (s.writeEq v).drop = s.drop := rfl
@[simp] theorem writeEq_eq (s : State) (v : Bool) : (s.writeEq v).eq = v := rfl
@[simp] theorem writeEq_onc (s : State) (v : Bool) : (s.writeEq v).onc = s.onc := rfl
@[simp] theorem writeEq_errcause (s : State) (v : Bool) : (s.writeEq v).errcause = s.errcause := rfl
@[simp] theorem writeEq_outlen (s : State) (v : Bool) : (s.writeEq v).outlen = s.outlen := rfl
@[simp] theorem writeEq_errinfo (s : State) (v : Bool) : (s.writeEq v).errinfo = s.errinfo := rfl
@[simp] theorem writeEq_dtag (s : State) (v : Bool) : (s.writeEq v).dtag = s.dtag := rfl
@[simp] theorem writeEq_din (s : State) (v : Bool) : (s.writeEq v).din = s.din := rfl
@[simp] theorem writeEq_dout (s : State) (v : Bool) : (s.writeEq v).dout = s.dout := rfl
@[simp] theorem writeEq_out (s : State) (v : Bool) : (s.writeEq v).out = s.out := rfl
@[simp] theorem writeEq_turns (s : State) (v : Bool) : (s.writeEq v).turns = s.turns := rfl
@[simp] theorem writeEq_hostReads (s : State) (v : Bool) : (s.writeEq v).hostReads = s.hostReads := rfl

/-! ### writeOnc -/

@[simp] theorem writeOnc_fe (s : State) (v : Bool) : (s.writeOnc v).fe = s.fe := rfl
@[simp] theorem writeOnc_pend (s : State) (v : Bool) : (s.writeOnc v).pend = s.pend := rfl
@[simp] theorem writeOnc_err (s : State) (v : Bool) : (s.writeOnc v).err = s.err := rfl
@[simp] theorem writeOnc_drop (s : State) (v : Bool) : (s.writeOnc v).drop = s.drop := rfl
@[simp] theorem writeOnc_eq (s : State) (v : Bool) : (s.writeOnc v).eq = s.eq := rfl
@[simp] theorem writeOnc_onc (s : State) (v : Bool) : (s.writeOnc v).onc = v := rfl
@[simp] theorem writeOnc_errcause (s : State) (v : Bool) : (s.writeOnc v).errcause = s.errcause := rfl
@[simp] theorem writeOnc_outlen (s : State) (v : Bool) : (s.writeOnc v).outlen = s.outlen := rfl
@[simp] theorem writeOnc_errinfo (s : State) (v : Bool) : (s.writeOnc v).errinfo = s.errinfo := rfl
@[simp] theorem writeOnc_dtag (s : State) (v : Bool) : (s.writeOnc v).dtag = s.dtag := rfl
@[simp] theorem writeOnc_din (s : State) (v : Bool) : (s.writeOnc v).din = s.din := rfl
@[simp] theorem writeOnc_dout (s : State) (v : Bool) : (s.writeOnc v).dout = s.dout := rfl
@[simp] theorem writeOnc_out (s : State) (v : Bool) : (s.writeOnc v).out = s.out := rfl
@[simp] theorem writeOnc_turns (s : State) (v : Bool) : (s.writeOnc v).turns = s.turns := rfl
@[simp] theorem writeOnc_hostReads (s : State) (v : Bool) : (s.writeOnc v).hostReads = s.hostReads := rfl

/-! ### emptyPend -/

@[simp] theorem emptyPend_fe (s : State) : (s.emptyPend).fe = s.fe := rfl
@[simp] theorem emptyPend_pend (s : State) : (s.emptyPend).pend = none := rfl
@[simp] theorem emptyPend_err (s : State) : (s.emptyPend).err = s.err := rfl
@[simp] theorem emptyPend_drop (s : State) : (s.emptyPend).drop = s.drop := rfl
@[simp] theorem emptyPend_eq (s : State) : (s.emptyPend).eq = s.eq := rfl
@[simp] theorem emptyPend_onc (s : State) : (s.emptyPend).onc = s.onc := rfl
@[simp] theorem emptyPend_errcause (s : State) : (s.emptyPend).errcause = s.errcause := rfl
@[simp] theorem emptyPend_outlen (s : State) : (s.emptyPend).outlen = s.outlen := rfl
@[simp] theorem emptyPend_errinfo (s : State) : (s.emptyPend).errinfo = s.errinfo := rfl
@[simp] theorem emptyPend_dtag (s : State) : (s.emptyPend).dtag = s.dtag := rfl
@[simp] theorem emptyPend_din (s : State) : (s.emptyPend).din = s.din := rfl
@[simp] theorem emptyPend_dout (s : State) : (s.emptyPend).dout = s.dout := rfl
@[simp] theorem emptyPend_out (s : State) : (s.emptyPend).out = s.out := rfl
@[simp] theorem emptyPend_turns (s : State) : (s.emptyPend).turns = s.turns := rfl
@[simp] theorem emptyPend_hostReads (s : State) : (s.emptyPend).hostReads = s.hostReads := rfl

/-! ### errorCompletion -/

@[simp] theorem errorCompletion_fe (s : State) (c : Cause) (cmd : Word) : (s.errorCompletion c cmd).fe = s.fe := rfl
@[simp] theorem errorCompletion_pend (s : State) (c : Cause) (cmd : Word) : (s.errorCompletion c cmd).pend = none := rfl
@[simp] theorem errorCompletion_err (s : State) (c : Cause) (cmd : Word) : (s.errorCompletion c cmd).err = true := rfl
@[simp] theorem errorCompletion_drop (s : State) (c : Cause) (cmd : Word) : (s.errorCompletion c cmd).drop = s.drop := rfl
@[simp] theorem errorCompletion_eq (s : State) (c : Cause) (cmd : Word) : (s.errorCompletion c cmd).eq = s.eq := rfl
@[simp] theorem errorCompletion_onc (s : State) (c : Cause) (cmd : Word) : (s.errorCompletion c cmd).onc = s.onc := rfl
@[simp] theorem errorCompletion_errcause (s : State) (c : Cause) (cmd : Word) : (s.errorCompletion c cmd).errcause = c.code := rfl
@[simp] theorem errorCompletion_outlen (s : State) (c : Cause) (cmd : Word) : (s.errorCompletion c cmd).outlen = s.outlen := rfl
@[simp] theorem errorCompletion_errinfo (s : State) (c : Cause) (cmd : Word) : (s.errorCompletion c cmd).errinfo = cmd := rfl
@[simp] theorem errorCompletion_dtag (s : State) (c : Cause) (cmd : Word) : (s.errorCompletion c cmd).dtag = s.dtag := rfl
@[simp] theorem errorCompletion_din (s : State) (c : Cause) (cmd : Word) : (s.errorCompletion c cmd).din = s.din := rfl
@[simp] theorem errorCompletion_dout (s : State) (c : Cause) (cmd : Word) : (s.errorCompletion c cmd).dout = s.dout := rfl
@[simp] theorem errorCompletion_out (s : State) (c : Cause) (cmd : Word) : (s.errorCompletion c cmd).out = s.out := rfl
@[simp] theorem errorCompletion_turns (s : State) (c : Cause) (cmd : Word) : (s.errorCompletion c cmd).turns = s.turns := rfl
@[simp] theorem errorCompletion_hostReads (s : State) (c : Cause) (cmd : Word) : (s.errorCompletion c cmd).hostReads = s.hostReads := rfl

/-! ### clearError -/

@[simp] theorem clearError_fe (s : State) : (s.clearError).fe = s.fe := rfl
@[simp] theorem clearError_pend (s : State) : (s.clearError).pend = s.pend := rfl
@[simp] theorem clearError_err (s : State) : (s.clearError).err = false := rfl
@[simp] theorem clearError_drop (s : State) : (s.clearError).drop = false := rfl
@[simp] theorem clearError_eq (s : State) : (s.clearError).eq = s.eq := rfl
@[simp] theorem clearError_onc (s : State) : (s.clearError).onc = s.onc := rfl
@[simp] theorem clearError_errcause (s : State) : (s.clearError).errcause = 0 := rfl
@[simp] theorem clearError_outlen (s : State) : (s.clearError).outlen = s.outlen := rfl
@[simp] theorem clearError_errinfo (s : State) : (s.clearError).errinfo = 0 := rfl
@[simp] theorem clearError_dtag (s : State) : (s.clearError).dtag = s.dtag := rfl
@[simp] theorem clearError_din (s : State) : (s.clearError).din = s.din := rfl
@[simp] theorem clearError_dout (s : State) : (s.clearError).dout = s.dout := rfl
@[simp] theorem clearError_out (s : State) : (s.clearError).out = s.out := rfl
@[simp] theorem clearError_turns (s : State) : (s.clearError).turns = s.turns := rfl
@[simp] theorem clearError_hostReads (s : State) : (s.clearError).hostReads = s.hostReads := rfl

/-! ### resetCore -/

@[simp] theorem resetCore_fe (s : State) : (s.resetCore).fe = State.reset.fe := rfl
@[simp] theorem resetCore_pend (s : State) : (s.resetCore).pend = State.reset.pend := rfl
@[simp] theorem resetCore_err (s : State) : (s.resetCore).err = State.reset.err := rfl
@[simp] theorem resetCore_drop (s : State) : (s.resetCore).drop = State.reset.drop := rfl
@[simp] theorem resetCore_eq (s : State) : (s.resetCore).eq = State.reset.eq := rfl
@[simp] theorem resetCore_onc (s : State) : (s.resetCore).onc = State.reset.onc := rfl
@[simp] theorem resetCore_errcause (s : State) : (s.resetCore).errcause = State.reset.errcause := rfl
@[simp] theorem resetCore_outlen (s : State) : (s.resetCore).outlen = State.reset.outlen := rfl
@[simp] theorem resetCore_errinfo (s : State) : (s.resetCore).errinfo = State.reset.errinfo := rfl
@[simp] theorem resetCore_dtag (s : State) : (s.resetCore).dtag = State.reset.dtag := rfl
@[simp] theorem resetCore_din (s : State) : (s.resetCore).din = State.reset.din := rfl
@[simp] theorem resetCore_dout (s : State) : (s.resetCore).dout = State.reset.dout := rfl
@[simp] theorem resetCore_out (s : State) : (s.resetCore).out = State.reset.out := rfl
@[simp] theorem resetCore_turns (s : State) : (s.resetCore).turns = s.turns := rfl
@[simp] theorem resetCore_hostReads (s : State) : (s.resetCore).hostReads = s.hostReads := rfl

/-! ### The register file -/

/-- A written register reads as the element written. -/
@[simp] theorem readFe_writeFe_same (s : State) (i : Reg) (e : Elem) : (s.writeFe i e).readFe i = some e := by
  simp [State.readFe]

/-- A write leaves every other register alone. -/
theorem readFe_writeFe_ne (s : State) (i j : Reg) (e : Elem) (h : i ≠ j) : (s.writeFe i e).readFe j = s.readFe j := by
  simp [State.readFe, Fin.val_ne_of_ne h]

/-- The register file reads as the vector it is. -/
theorem readFe_eq (s : State) (i : Reg) : s.readFe i = s.fe[i.val] := rfl

end Sys2Proof.Machine
end

