-- ==== Sys2Proof/Laws/Ops.lean ====
section
/-! SUPPORT. One lemma per shared operation, that says once what it can do: the completion of a command, the operand reads and the
field primitives. Later proofs cite these and do not unfold the operations. -/

namespace Sys2Proof.Machine

/-! ### Sequencing of rules: an error ends the command (00_scope.md R15) -/

@[simp] theorem ok_bind {α β : Type} (a : α) (f : α → Result β) : ((Except.ok a : Result α) >>= f) = f a := rfl

@[simp] theorem error_bind {α β : Type} (c : Cause) (f : α → Result β) :
    ((Except.error c : Result α) >>= f) = .error c := rfl

/-! ### Completion (10_state.md R32, 60_exceptions.md R203) -/

@[simp] theorem complete_idle (s : State) (rule : Pending → Result State) (h : s.pend = none) :
    s.complete rule = .fault .engineIdle := by
  simp [State.complete, h]

theorem complete_ok (s t : State) (p : Pending) (rule : Pending → Result State) (h : s.pend = some p) (hr : rule p = .ok t) :
    s.complete rule = .next t.emptyPend := by
  simp [State.complete, h, hr]

theorem complete_error (s : State) (p : Pending) (c : Cause) (rule : Pending → Result State) (h : s.pend = some p)
    (hr : rule p = .error c) : s.complete rule = .next (s.errorCompletion c p.cmd) := by
  simp [State.complete, h, hr]

/-- Everything a completion can answer with: a command was pending, and the state is the rule's with PEND emptied, or the error
completion of the cause it raised. -/
theorem complete_cases {s t : State} {rule : Pending → Result State} (h : s.complete rule = .next t) :
    ∃ p, s.pend = some p ∧
      ((∃ u, rule p = .ok u ∧ t = u.emptyPend) ∨ ∃ c, rule p = .error c ∧ t = s.errorCompletion c p.cmd) := by
  cases hp : s.pend with
  | none => simp [complete_idle s rule hp] at h
  | some p =>
    refine ⟨p, rfl, ?_⟩
    cases hr : rule p with
    | ok u =>
      rw [complete_ok s u p rule hp hr] at h
      exact .inl ⟨u, rfl, by injection h with h; exact h.symm⟩
    | error c =>
      rw [complete_error s p c rule hp hr] at h
      exact .inr ⟨c, rfl, by injection h with h; exact h.symm⟩

/-- With a command pending a completion always answers a next state. -/
theorem complete_next (s : State) (p : Pending) (rule : Pending → Result State) (h : s.pend = some p) :
    ∃ t, s.complete rule = .next t := by
  cases hr : rule p with
  | ok u => exact ⟨_, complete_ok s u p rule h hr⟩
  | error c => exact ⟨_, complete_error s p c rule h hr⟩

/-! ### Operand reads (40_field_arithmetic.md R100, 41_point_doubler.md R140) -/

theorem src_ok {s : State} {i : Reg} {e : Elem} (h : s.fe[i.val] = some e) : src s i = .ok e := by
  simp [src, readFe_eq, h]

theorem src_invalid {s : State} {i : Reg} (h : s.fe[i.val] = none) : src s i = .error .unwrittenOperand := by
  simp [src, readFe_eq, h]

/-- `src` succeeds on exactly the valid registers. -/
theorem src_eq_ok_iff {s : State} {i : Reg} {e : Elem} : src s i = .ok e ↔ s.fe[i.val] = some e := by
  cases h : s.fe[i.val] <;> simp [src, readFe_eq, h]

theorem src2_ok {s : State} {i j : Reg} {a b : Elem} (ha : s.fe[i.val] = some a) (hb : s.fe[j.val] = some b) :
    src2 s i j = .ok (a, b) := by
  simp [src2, src_ok ha, src_ok hb]

theorem src2_invalid {s : State} {i j : Reg} (h : s.fe[i.val] = none ∨ s.fe[j.val] = none) :
    src2 s i j = .error .unwrittenOperand := by
  unfold src2
  cases hi : s.fe[i.val] with
  | none => rw [src_invalid hi]; rfl
  | some a =>
    have hj : s.fe[j.val] = none := by simpa [hi] using h
    rw [src_ok hi, src_invalid hj]; rfl

/-- The Y register of an even specifier is the next one (10_state.md R25). -/
theorem pairY_eq (r : Reg) : pairY r = r + 1 := by
  apply Fin.ext
  simp [pairY, Fin.val_add]

theorem evenReg_ok {r : Reg} (h : r.val % 2 = 0) : evenReg r = .ok () := by
  simp [evenReg, Reg.isEven, h]

theorem evenReg_odd {r : Reg} (h : r.val % 2 ≠ 0) : evenReg r = .error .illegalCommand := by
  simp [evenReg, Reg.isEven, h]

theorem check_ok {a b : Elem} (h : a.tag = b.tag) : check a b = .ok () := by simp [check, h]

theorem check_mismatch {a b : Elem} (h : a.tag ≠ b.tag) : check a b = .error .fieldMismatch := by simp [check, h]

/-- Y of the pair stands in r + 1. -/
theorem src_pairY (s : State) (r : Reg) : src s (pairY r) = src s (r + 1) := by rw [pairY_eq]

theorem pt_ok {s : State} {r : Reg} {x y : Elem} (hr : r.val % 2 = 0) (hx : s.fe[r.val] = some x)
    (hy : s.fe[(r + 1).val] = some y) (ht : x.tag = y.tag) : pt s r = .ok (x, y) := by
  simp only [pt, evenReg_ok hr, src_ok hx, src_pairY, src_ok hy, ok_bind, check_ok ht]; rfl

theorem pt_invalid {s : State} {r : Reg} (hr : r.val % 2 = 0) (h : s.fe[r.val] = none ∨ s.fe[(r + 1).val] = none) :
    pt s r = .error .unwrittenOperand := by
  unfold pt
  rw [evenReg_ok hr, src_pairY]
  cases hx : s.fe[r.val] with
  | none => rw [src_invalid hx]; rfl
  | some x =>
    have hy : s.fe[(r + 1).val] = none := by simpa [hx] using h
    rw [src_ok hx, src_invalid hy]; rfl

theorem pt_mismatch {s : State} {r : Reg} {x y : Elem} (hr : r.val % 2 = 0) (hx : s.fe[r.val] = some x)
    (hy : s.fe[(r + 1).val] = some y) (ht : x.tag ≠ y.tag) : pt s r = .error .fieldMismatch := by
  simp only [pt, evenReg_ok hr, src_ok hx, src_pairY, src_ok hy, ok_bind, check_mismatch ht]; rfl

theorem pt_odd {s : State} {r : Reg} (hr : r.val % 2 ≠ 0) : pt s r = .error .illegalCommand := by
  simp only [pt, evenReg_odd hr]; rfl

/-! ### Field primitives (00_scope.md R16) -/

theorem nonzero_ok {b : Elem} (h : b.value.val ≠ 0) : nonzero b = .ok () := by simp [nonzero, h]

theorem nonzero_zero {b : Elem} (h : b.value.val = 0) : nonzero b = .error .divisionByZero := by simp [nonzero, h]

theorem fadd_ok {a b : Elem} (h : a.tag = b.tag) :
    fadd a b = .ok ⟨residue ((a.value.val : Int) + b.value.val), a.tag⟩ := by
  simp only [fadd, check_ok h]; rfl

theorem fsub_ok {a b : Elem} (h : a.tag = b.tag) :
    fsub a b = .ok ⟨residue ((a.value.val : Int) - b.value.val), a.tag⟩ := by
  simp only [fsub, check_ok h]; rfl

theorem fmul_ok {a b : Elem} (h : a.tag = b.tag) :
    fmul a b = .ok ⟨residue ((a.value.val : Int) * b.value.val), a.tag⟩ := by
  simp only [fmul, check_ok h]; rfl

theorem fdiv_ok {a b : Elem} (h : a.tag = b.tag) (hb : b.value.val ≠ 0) :
    fdiv a b = .ok ⟨residue ((a.value.val : Int) * (inverse b.value).val), a.tag⟩ := by
  simp only [fdiv, check_ok h, nonzero_ok hb]; rfl

theorem fdiv_zero {a b : Elem} (h : a.tag = b.tag) (hb : b.value.val = 0) : fdiv a b = .error .divisionByZero := by
  simp only [fdiv, check_ok h, nonzero_zero hb]; rfl

theorem feq_ok {a b : Elem} (h : a.tag = b.tag) : feq a b = .ok (decide (a.value.val = b.value.val)) := by
  simp only [feq, check_ok h]; rfl

theorem fadd_mismatch {a b : Elem} (h : a.tag ≠ b.tag) : fadd a b = .error .fieldMismatch := by
  simp only [fadd, check_mismatch h]; rfl

theorem fsub_mismatch {a b : Elem} (h : a.tag ≠ b.tag) : fsub a b = .error .fieldMismatch := by
  simp only [fsub, check_mismatch h]; rfl

theorem fmul_mismatch {a b : Elem} (h : a.tag ≠ b.tag) : fmul a b = .error .fieldMismatch := by
  simp only [fmul, check_mismatch h]; rfl

theorem fdiv_mismatch {a b : Elem} (h : a.tag ≠ b.tag) : fdiv a b = .error .fieldMismatch := by
  simp only [fdiv, check_mismatch h]; rfl

theorem feq_mismatch {a b : Elem} (h : a.tag ≠ b.tag) : feq a b = .error .fieldMismatch := by
  simp only [feq, check_mismatch h]; rfl

/-- smul(2, a) is 2·a mod P with a's tag: it never combines two tags (00_scope.md R16). -/
theorem smul2_ok (a : Elem) : smul2 a = .ok ⟨residue ((a.value.val : Int) + a.value.val), a.tag⟩ := by
  simp only [smul2, smulSucc]
  exact fadd_ok rfl

/-- smul(3, a) is 3·a mod P with a's tag. -/
theorem smul3_ok (a : Elem) :
    smul3 a = .ok ⟨residue ((residue ((a.value.val : Int) + a.value.val)).val + a.value.val), a.tag⟩ := by
  have h : smulSucc 1 a = .ok ⟨residue ((a.value.val : Int) + a.value.val), a.tag⟩ := smul2_ok a
  rw [smul3, smulSucc, h]
  exact fadd_ok (a := ⟨_, a.tag⟩) rfl

/-- A constant below P is loaded as it is, with tag 0 (40_field_arithmetic.md R104). -/
theorem constElem_value (n : Nat) (h : n < Config.P) : (constElem n).value.val = n := by
  simp [constElem, Nat.mod_eq_of_lt h]

@[simp] theorem constElem_tag (n : Nat) : (constElem n).tag = 0 := rfl

end Sys2Proof.Machine
end

