-- ==== Sys2Proof/Laws/Exec.lean ====
section
/-! SUPPORT. One lemma per meaning and way it ends, over the operations of Machine/Ops.lean: later proofs cite these and do not unfold a
meaning. Hypotheses speak of the register file as the vector it is. -/

namespace Sys2Proof.Machine

variable {s : State} {p : Pending} {rd ra rb : Reg} {a b x y r : Elem}

/-! ### FLD, FLDC, FST (40_field_arithmetic.md R103 to R105) -/

theorem execFld_ok (hp : s.pend = some p) (t : Tag) :
    execFld rd t s = .next (s.writeFe rd ⟨residue p.din.toNat, t⟩).emptyPend := by
  simp only [execFld, State.complete, hp]

theorem execFldc_ok (hp : s.pend = some p) (k : ConstSel) : execFldc rd k s = .next (s.writeFe rd (constOf k)).emptyPend := by
  simp only [execFldc, State.complete, hp]

theorem execFst_ok (hp : s.pend = some p) (ha : s.fe[ra.val] = some a) :
    execFst ra s = .next (s.writeDout a).emptyPend := by
  simp only [execFst, State.complete, hp, src_ok ha, ok_bind]
  rfl

theorem execFst_invalid (hp : s.pend = some p) (ha : s.fe[ra.val] = none) :
    execFst ra s = .next (s.errorCompletion .unwrittenOperand p.cmd) := by
  simp only [execFst, State.complete, hp, src_invalid ha, error_bind]

/-! ### FADD, FSUB, FMUL, FDIV (R106 to R109): their one shape -/

theorem binaryField_ok {op : Elem → Elem → Result Elem} (hp : s.pend = some p) (ha : s.fe[ra.val] = some a)
    (hb : s.fe[rb.val] = some b) (hop : op a b = .ok r) :
    binaryField op rd ra rb s = .next (s.writeFe rd r).emptyPend := by
  simp only [binaryField, State.complete, hp, src2_ok ha hb, ok_bind, hop]
  rfl

theorem binaryField_error {op : Elem → Elem → Result Elem} {c : Cause} (hp : s.pend = some p)
    (ha : s.fe[ra.val] = some a) (hb : s.fe[rb.val] = some b) (hop : op a b = .error c) :
    binaryField op rd ra rb s = .next (s.errorCompletion c p.cmd) := by
  simp only [binaryField, State.complete, hp, src2_ok ha hb, ok_bind, hop, error_bind]

theorem binaryField_invalid {op : Elem → Elem → Result Elem} (hp : s.pend = some p)
    (h : s.fe[ra.val] = none ∨ s.fe[rb.val] = none) :
    binaryField op rd ra rb s = .next (s.errorCompletion .unwrittenOperand p.cmd) := by
  simp only [binaryField, State.complete, hp, src2_invalid h, error_bind]

/-! ### FINV, FEQ (R110, R111) -/

theorem execFinv_ok (hp : s.pend = some p) (hb : s.fe[rb.val] = some b) (hz : b.value.val ≠ 0) :
    execFinv rd rb s = .next (s.writeFe rd ⟨inverse b.value, b.tag⟩).emptyPend := by
  simp only [execFinv, State.complete, hp, src_ok hb, ok_bind, nonzero_ok hz]
  rfl

theorem execFinv_zero (hp : s.pend = some p) (hb : s.fe[rb.val] = some b) (hz : b.value.val = 0) :
    execFinv rd rb s = .next (s.errorCompletion .divisionByZero p.cmd) := by
  simp only [execFinv, State.complete, hp, src_ok hb, ok_bind, nonzero_zero hz, error_bind]

theorem execFinv_invalid (hp : s.pend = some p) (hb : s.fe[rb.val] = none) :
    execFinv rd rb s = .next (s.errorCompletion .unwrittenOperand p.cmd) := by
  simp only [execFinv, State.complete, hp, src_invalid hb, error_bind]

theorem execFeq_ok (hp : s.pend = some p) (ha : s.fe[ra.val] = some a) (hb : s.fe[rb.val] = some b) (ht : a.tag = b.tag) :
    execFeq ra rb s = .next (s.writeEq (decide (a.value.val = b.value.val))).emptyPend := by
  simp only [execFeq, State.complete, hp, src2_ok ha hb, ok_bind, feq_ok ht]
  rfl

theorem execFeq_mismatch (hp : s.pend = some p) (ha : s.fe[ra.val] = some a) (hb : s.fe[rb.val] = some b)
    (ht : a.tag ≠ b.tag) : execFeq ra rb s = .next (s.errorCompletion .fieldMismatch p.cmd) := by
  simp only [execFeq, State.complete, hp, src2_ok ha hb, ok_bind, feq_mismatch ht, error_bind]

theorem execFeq_invalid (hp : s.pend = some p) (h : s.fe[ra.val] = none ∨ s.fe[rb.val] = none) :
    execFeq ra rb s = .next (s.errorCompletion .unwrittenOperand p.cmd) := by
  simp only [execFeq, State.complete, hp, src2_invalid h, error_bind]

/-! ### The point commands -/

theorem execPonc_of_pt (v : Bool) (hp : s.pend = some p) (h : pt s ra = .ok (x, y)) (hv : onCurve x y = .ok v) :
    execPonc ra s = .next (s.writeOnc v).emptyPend := by
  simp only [execPonc, State.complete, hp, h, ok_bind, hv]
  rfl

theorem execPonc_not_on_tag {c : Cause} (hp : s.pend = some p) (h : pt s ra = .ok (x, y)) (hv : onCurve x y = .error c) :
    execPonc ra s = .next (s.errorCompletion c p.cmd) := by
  simp only [execPonc, State.complete, hp, h, ok_bind, hv, error_bind]

theorem execPonc_error {c : Cause} (hp : s.pend = some p) (h : pt s ra = .error c) :
    execPonc ra s = .next (s.errorCompletion c p.cmd) := by
  simp only [execPonc, State.complete, hp, h, error_bind]

theorem execPdbl_of_pt {x2 y2 : Elem} (hp : s.pend = some p) (hrd : rd.val % 2 = 0) (h : pt s ra = .ok (x, y))
    (hd : doublePoint x y = .ok (x2, y2)) :
    execPdbl rd ra s = .next ((s.writeFe rd x2).writeFe (pairY rd) y2).emptyPend := by
  simp only [execPdbl, State.complete, hp, evenReg_ok hrd, h, ok_bind, hd]
  rfl

theorem execPdbl_no_double {c : Cause} (hp : s.pend = some p) (hrd : rd.val % 2 = 0) (h : pt s ra = .ok (x, y))
    (hd : doublePoint x y = .error c) : execPdbl rd ra s = .next (s.errorCompletion c p.cmd) := by
  simp only [execPdbl, State.complete, hp, evenReg_ok hrd, h, ok_bind, hd, error_bind]

theorem execPdbl_error {c : Cause} (hp : s.pend = some p) (hrd : rd.val % 2 = 0) (h : pt s ra = .error c) :
    execPdbl rd ra s = .next (s.errorCompletion c p.cmd) := by
  simp only [execPdbl, State.complete, hp, evenReg_ok hrd, h, ok_bind, error_bind]

theorem execPser_of_pt (hp : s.pend = some p) (h : pt s ra = .ok (x, y)) :
    execPser ra s = .next (s.writeOut (secBytes x y)).emptyPend := by
  simp only [execPser, State.complete, hp, h, ok_bind]
  rfl

theorem execPser_error {c : Cause} (hp : s.pend = some p) (h : pt s ra = .error c) :
    execPser ra s = .next (s.errorCompletion c p.cmd) := by
  simp only [execPser, State.complete, hp, h, error_bind]

theorem execAddr_of_pt (net : Network) (hp : s.pend = some p) (h : pt s ra = .ok (x, y)) :
    execAddr ra net s =
      .next (s.writeOut (addressPayload Config.sha256 Config.ripemd160 net.byte (secBytes x y))).emptyPend := by
  simp only [execAddr, State.complete, hp, h, ok_bind]
  rfl

theorem execAddr_error {c : Cause} (net : Network) (hp : s.pend = some p) (h : pt s ra = .error c) :
    execAddr ra net s = .next (s.errorCompletion c p.cmd) := by
  simp only [execAddr, State.complete, hp, h, error_bind]

/-! ### What the point formulas yield (41_point_doubler.md R141, R142) -/

/-- 2·y mod P, as `smul2` forms it. -/
def twice (v : Residue) : Residue := residue ((v.val : Int) + v.val)

/-- 3·v mod P, as `smul3` forms it. -/
def thrice (v : Residue) : Residue := residue (((twice v).val : Int) + v.val)

/-- The product mod P, as `fmul` forms it. -/
def times (v w : Residue) : Residue := residue ((v.val : Int) * w.val)

/-- The difference mod P, as `fsub` forms it. -/
def minus (v w : Residue) : Residue := residue ((v.val : Int) - w.val)

/-- The slope c of the tangent. -/
def tangentSlope (x y : Residue) : Residue := times (thrice (times x x)) (inverse (twice y))

/-- X' = c² − 2·X. -/
def doubleX (x y : Residue) : Residue := minus (times (tangentSlope x y) (tangentSlope x y)) (twice x)

/-- Y' = c·(X − X') − Y. -/
def doubleY (x y : Residue) : Residue := minus (times (tangentSlope x y) (minus x (doubleX x y))) y

theorem twice_val (v : Residue) : (twice v).val = 2 * v.val % Config.P := by
  rw [twice, residue_add_val, two_mul]

theorem thrice_val (v : Residue) : (thrice v).val = 3 * v.val % Config.P := by
  rw [thrice, residue_add_val, twice_val, Nat.mod_add_mod]
  congr 1
  ring

theorem times_val (v w : Residue) : (times v w).val = v.val * w.val % Config.P := residue_mul_val v w

theorem minus_val_int (v w : Residue) : ((minus v w).val : Int) = ((v.val : Int) - w.val) % (Config.P : Int) :=
  residue_val_int _

/-- 2·Y is 0 exactly when Y is, since P is odd (41_point_doubler.md R141). -/
theorem twice_eq_zero_iff (v : Residue) : (twice v).val = 0 ↔ v.val = 0 := by
  have hv := v.isLt
  have hodd := P_odd
  rw [twice_val]
  by_cases hlt : 2 * v.val < Config.P
  · rw [Nat.mod_eq_of_lt hlt]
    omega
  · rw [Nat.mod_eq_sub_mod (by omega), Nat.mod_eq_of_lt (by omega)]
    omega

/-- Doubling succeeds on a pair of one tag with Y ≠ 0, with both results of the tag of X. -/
theorem doublePoint_ok (ht : x.tag = y.tag) (hy : y.value.val ≠ 0) :
    doublePoint x y = .ok (⟨doubleX x.value y.value, x.tag⟩, ⟨doubleY x.value y.value, x.tag⟩) := by
  have hz : (⟨twice y.value, y.tag⟩ : Elem).value.val ≠ 0 := fun h => hy ((twice_eq_zero_iff _).1 h)
  have hd := fdiv_ok (a := ⟨thrice (times x.value x.value), x.tag⟩) (b := ⟨twice y.value, y.tag⟩) ht hz
  have hsub := fsub_ok (a := ⟨times (tangentSlope x.value y.value) (minus x.value (doubleX x.value y.value)), x.tag⟩) (b := y) ht
  have h3 : smul3 ⟨times x.value x.value, x.tag⟩ = .ok ⟨thrice (times x.value x.value), x.tag⟩ := smul3_ok _
  have h2y : smul2 y = .ok ⟨twice y.value, y.tag⟩ := smul2_ok y
  have h2x : smul2 x = .ok ⟨twice x.value, x.tag⟩ := smul2_ok x
  have hxx : fmul x x = .ok ⟨times x.value x.value, x.tag⟩ := fmul_ok rfl
  have hcc : fmul ⟨tangentSlope x.value y.value, x.tag⟩ ⟨tangentSlope x.value y.value, x.tag⟩
      = .ok ⟨times (tangentSlope x.value y.value) (tangentSlope x.value y.value), x.tag⟩ := fmul_ok rfl
  have hx2 : fsub ⟨times (tangentSlope x.value y.value) (tangentSlope x.value y.value), x.tag⟩ ⟨twice x.value, x.tag⟩
      = .ok ⟨doubleX x.value y.value, x.tag⟩ := fsub_ok rfl
  have hdx : fsub x ⟨doubleX x.value y.value, x.tag⟩ = .ok ⟨minus x.value (doubleX x.value y.value), x.tag⟩ := fsub_ok rfl
  have hcdx : fmul ⟨tangentSlope x.value y.value, x.tag⟩ ⟨minus x.value (doubleX x.value y.value), x.tag⟩
      = .ok ⟨times (tangentSlope x.value y.value) (minus x.value (doubleX x.value y.value)), x.tag⟩ := fmul_ok rfl
  unfold doublePoint
  rw [hxx, ok_bind, h3, ok_bind, h2y, ok_bind, hd, ok_bind]
  change (fmul ⟨tangentSlope x.value y.value, x.tag⟩ ⟨tangentSlope x.value y.value, x.tag⟩ >>= _) = _
  rw [hcc, ok_bind, h2x, ok_bind, hx2, ok_bind, hdx, ok_bind]
  change (fmul ⟨tangentSlope x.value y.value, x.tag⟩ ⟨minus x.value (doubleX x.value y.value), x.tag⟩ >>= _) = _
  rw [hcdx, ok_bind, hsub, ok_bind]
  rfl

/-- Doubling a pair of one tag with Y = 0 is DivisionByZero. -/
theorem doublePoint_zero (ht : x.tag = y.tag) (hy : y.value.val = 0) : doublePoint x y = .error .divisionByZero := by
  have hz : (⟨twice y.value, y.tag⟩ : Elem).value.val = 0 := (twice_eq_zero_iff _).2 hy
  have hd := fdiv_zero (a := ⟨thrice (times x.value x.value), x.tag⟩) (b := ⟨twice y.value, y.tag⟩) ht hz
  have h3 : smul3 ⟨times x.value x.value, x.tag⟩ = .ok ⟨thrice (times x.value x.value), x.tag⟩ := smul3_ok _
  have h2y : smul2 y = .ok ⟨twice y.value, y.tag⟩ := smul2_ok y
  have hxx : fmul x x = .ok ⟨times x.value x.value, x.tag⟩ := fmul_ok rfl
  unfold doublePoint
  rw [hxx, ok_bind, h3, ok_bind, h2y, ok_bind, hd, error_bind]

/-- The curve test of a pair of tag 0: y·y against x·x·x + 7, mod P. -/
theorem onCurve_ok (hx : x.tag = 0) (hy : y.tag = 0) :
    onCurve x y = .ok (decide (y.value.val * y.value.val % Config.P
      = (x.value.val * x.value.val * x.value.val + 7) % Config.P)) := by
  have h1 : fmul y y = .ok ⟨times y.value y.value, y.tag⟩ := fmul_ok rfl
  have h2 : fmul x x = .ok ⟨times x.value x.value, x.tag⟩ := fmul_ok rfl
  have h3 : fmul ⟨times x.value x.value, x.tag⟩ x = .ok ⟨times (times x.value x.value) x.value, x.tag⟩ := fmul_ok rfl
  have h4 := fadd_ok (a := ⟨times (times x.value x.value) x.value, x.tag⟩) (b := constOf .b) hx
  have h5 := feq_ok (a := ⟨times y.value y.value, y.tag⟩)
    (b := ⟨residue ((times (times x.value x.value) x.value).val + (constOf .b).value.val), x.tag⟩) (hy.trans hx.symm)
  have hb : (constOf .b).value.val = 7 := by decide
  unfold onCurve
  rw [h1, ok_bind, h2, ok_bind, h3, ok_bind, h4, ok_bind, h5, residue_add_val, times_val, times_val, times_val, hb,
    Nat.mod_mul_mod, Nat.mod_add_mod]

/-- A pair of another tag than 0 does not meet the curve constant's: FieldMismatch. -/
theorem onCurve_mismatch (hx : x.tag ≠ 0) : onCurve x y = .error .fieldMismatch := by
  have h1 : fmul y y = .ok ⟨times y.value y.value, y.tag⟩ := fmul_ok rfl
  have h2 : fmul x x = .ok ⟨times x.value x.value, x.tag⟩ := fmul_ok rfl
  have h3 : fmul ⟨times x.value x.value, x.tag⟩ x = .ok ⟨times (times x.value x.value) x.value, x.tag⟩ := fmul_ok rfl
  have h4 := fadd_mismatch (a := ⟨times (times x.value x.value) x.value, x.tag⟩) (b := constOf .b) hx
  unfold onCurve
  rw [h1, ok_bind, h2, ok_bind, h3, ok_bind, h4, error_bind]

end Sys2Proof.Machine
end

