-- ==== Sys2Proof/Laws/Cases.lean ====
section
/-! SUPPORT. Everything a command can do, said once: the cause it latches, or the one update of the state it makes. Frames and invariants
are case analyses over this. -/

namespace Sys2Proof.Machine

variable {s t : State} {p : Pending}

/-- What `src2` answers with, whichever way. -/
theorem src2_cases (s : State) (ra rb : Reg) :
    ((s.fe[ra.val] = none ∨ s.fe[rb.val] = none) ∧ src2 s ra rb = .error .unwrittenOperand) ∨
    ∃ a b, s.fe[ra.val] = some a ∧ s.fe[rb.val] = some b ∧ src2 s ra rb = .ok (a, b) := by
  cases ha : s.fe[ra.val] with
  | none => exact .inl ⟨.inl rfl, src2_invalid (.inl ha)⟩
  | some a =>
    cases hb : s.fe[rb.val] with
    | none => exact .inl ⟨.inr rfl, src2_invalid (.inr hb)⟩
    | some b => exact .inr ⟨a, b, rfl, rfl, src2_ok ha hb⟩

/-- What `pt` answers with on an even specifier, whichever way. -/
theorem pt_cases (s : State) {r : Reg} (hr : r.val % 2 = 0) :
    ((s.fe[r.val] = none ∨ s.fe[(r + 1).val] = none) ∧ pt s r = .error .unwrittenOperand) ∨
    ∃ x y, s.fe[r.val] = some x ∧ s.fe[(r + 1).val] = some y ∧
      ((x.tag ≠ y.tag ∧ pt s r = .error .fieldMismatch) ∨ (x.tag = y.tag ∧ pt s r = .ok (x, y))) := by
  cases hx : s.fe[r.val] with
  | none => exact .inl ⟨.inl rfl, pt_invalid hr (.inl hx)⟩
  | some x =>
    cases hy : s.fe[(r + 1).val] with
    | none => exact .inl ⟨.inr rfl, pt_invalid hr (.inr hy)⟩
    | some y =>
      refine .inr ⟨x, y, rfl, rfl, ?_⟩
      by_cases ht : x.tag = y.tag
      · exact .inr ⟨ht, pt_ok hr hx hy ht⟩
      · exact .inl ⟨ht, pt_mismatch hr hx hy ht⟩

/-- The codes a command may raise (60_exceptions.md R200), IllegalCommand aside. -/
def mayRaise : Instr → List Cause
  | .fld _ _ => []
  | .fldc _ _ => []
  | .fst _ => [.unwrittenOperand]
  | .fadd _ _ _ => [.unwrittenOperand, .fieldMismatch]
  | .fsub _ _ _ => [.unwrittenOperand, .fieldMismatch]
  | .fmul _ _ _ => [.unwrittenOperand, .fieldMismatch]
  | .fdiv _ _ _ => [.unwrittenOperand, .fieldMismatch, .divisionByZero]
  | .finv _ _ => [.unwrittenOperand, .divisionByZero]
  | .feq _ _ => [.unwrittenOperand, .fieldMismatch]
  | .ponc _ => [.unwrittenOperand, .fieldMismatch]
  | .pdbl _ _ => [.unwrittenOperand, .fieldMismatch, .divisionByZero]
  | .pser _ => [.unwrittenOperand, .fieldMismatch]
  | .addr _ _ => [.unwrittenOperand, .fieldMismatch]

/-- The update that a completing command makes, PEND aside (10_state.md R23). -/
def Effect (s u : State) : Instr → Prop
  | .fld rd _ => ∃ e, u = s.writeFe rd e
  | .fldc rd _ => ∃ e, u = s.writeFe rd e
  | .fst ra => ∃ e, s.fe[ra.val] = some e ∧ u = s.writeDout e
  | .fadd rd _ _ => ∃ e, u = s.writeFe rd e
  | .fsub rd _ _ => ∃ e, u = s.writeFe rd e
  | .fmul rd _ _ => ∃ e, u = s.writeFe rd e
  | .fdiv rd _ _ => ∃ e, u = s.writeFe rd e
  | .finv rd _ => ∃ e, u = s.writeFe rd e
  | .feq _ _ => ∃ v, u = s.writeEq v
  | .ponc _ => ∃ v, u = s.writeOnc v
  | .pdbl rd _ => ∃ x y, u = (s.writeFe rd x).writeFe (rd + 1) y
  | .pser _ => ∃ x y, u = s.writeOut (secBytes x y)
  | .addr _ net => ∃ x y, u = s.writeOut (addressPayload Config.sha256 Config.ripemd160 net.byte (secBytes x y))

/-- A command's whole answer: an error completion with a cause it may raise, or its update with PEND emptied. -/
def Answer (i : Instr) (s t : State) (p : Pending) : Prop :=
  (∃ c ∈ mayRaise i, t = s.errorCompletion c p.cmd) ∨ ∃ u, Effect s u i ∧ t = u.emptyPend

theorem next_inj {a b : State} (h : (Host.Outcome.next a : StepOutcome) = .next b) : b = a := by
  injection h with h
  exact h.symm

theorem binaryField_answer {op : Elem → Elem → Result Elem} {rd ra rb : Reg} {causes : Elem → Elem → Cause → Prop}
    (hop : ∀ a b, (∃ r, op a b = .ok r) ∨ ∃ c, op a b = .error c ∧ causes a b c) (hp : s.pend = some p)
    (h : binaryField op rd ra rb s = .next t) :
    t = s.errorCompletion .unwrittenOperand p.cmd ∨ (∃ a b c, causes a b c ∧ t = s.errorCompletion c p.cmd) ∨
      ∃ e, t = (s.writeFe rd e).emptyPend := by
  rcases src2_cases s ra rb with ⟨hi, -⟩ | ⟨a, b, ha, hb, -⟩
  · rw [binaryField_invalid hp hi] at h
    exact .inl (next_inj h)
  · rcases hop a b with ⟨r, hr⟩ | ⟨c, hc, hcc⟩
    · rw [binaryField_ok hp ha hb hr] at h
      exact .inr (.inr ⟨r, next_inj h⟩)
    · rw [binaryField_error hp ha hb hc] at h
      exact .inr (.inl ⟨a, b, c, hcc, next_inj h⟩)

theorem fadd_cases (a b : Elem) : (∃ r, fadd a b = .ok r) ∨ ∃ c, fadd a b = .error c ∧ c = .fieldMismatch := by
  by_cases ht : a.tag = b.tag
  · exact .inl ⟨_, fadd_ok ht⟩
  · exact .inr ⟨_, fadd_mismatch ht, rfl⟩

theorem fsub_cases (a b : Elem) : (∃ r, fsub a b = .ok r) ∨ ∃ c, fsub a b = .error c ∧ c = .fieldMismatch := by
  by_cases ht : a.tag = b.tag
  · exact .inl ⟨_, fsub_ok ht⟩
  · exact .inr ⟨_, fsub_mismatch ht, rfl⟩

theorem fmul_cases (a b : Elem) : (∃ r, fmul a b = .ok r) ∨ ∃ c, fmul a b = .error c ∧ c = .fieldMismatch := by
  by_cases ht : a.tag = b.tag
  · exact .inl ⟨_, fmul_ok ht⟩
  · exact .inr ⟨_, fmul_mismatch ht, rfl⟩

theorem fdiv_cases (a b : Elem) :
    (∃ r, fdiv a b = .ok r) ∨ ∃ c, fdiv a b = .error c ∧ (c = .fieldMismatch ∨ c = .divisionByZero) := by
  by_cases ht : a.tag = b.tag
  · by_cases hz : b.value.val = 0
    · exact .inr ⟨_, fdiv_zero ht hz, .inr rfl⟩
    · exact .inl ⟨_, fdiv_ok ht hz⟩
  · exact .inr ⟨_, fdiv_mismatch ht, .inl rfl⟩

/-- Everything a well-formed command can do. -/
theorem exec_cases {i : Instr} (hi : i.wf = true) (hp : s.pend = some p) (h : exec i s = .next t) : Answer i s t p := by
  cases i with
  | fld rd tag => exact .inr ⟨_, ⟨_, rfl⟩, next_inj ((execFld_ok hp tag).symm.trans h)⟩
  | fldc rd k => exact .inr ⟨_, ⟨_, rfl⟩, next_inj ((execFldc_ok hp k).symm.trans h)⟩
  | fst ra =>
    cases ha : s.fe[ra.val] with
    | none => exact .inl ⟨_, by simp [mayRaise], next_inj ((execFst_invalid hp ha).symm.trans h)⟩
    | some a => exact .inr ⟨_, ⟨a, ha, rfl⟩, next_inj ((execFst_ok hp ha).symm.trans h)⟩
  | fadd rd ra rb =>
    rcases binaryField_answer fadd_cases hp h with h | ⟨_, _, c, rfl, h⟩ | ⟨e, h⟩
    · exact .inl ⟨_, by simp [mayRaise], h⟩
    · exact .inl ⟨_, by simp [mayRaise], h⟩
    · exact .inr ⟨_, ⟨e, rfl⟩, h⟩
  | fsub rd ra rb =>
    rcases binaryField_answer fsub_cases hp h with h | ⟨_, _, c, rfl, h⟩ | ⟨e, h⟩
    · exact .inl ⟨_, by simp [mayRaise], h⟩
    · exact .inl ⟨_, by simp [mayRaise], h⟩
    · exact .inr ⟨_, ⟨e, rfl⟩, h⟩
  | fmul rd ra rb =>
    rcases binaryField_answer fmul_cases hp h with h | ⟨_, _, c, rfl, h⟩ | ⟨e, h⟩
    · exact .inl ⟨_, by simp [mayRaise], h⟩
    · exact .inl ⟨_, by simp [mayRaise], h⟩
    · exact .inr ⟨_, ⟨e, rfl⟩, h⟩
  | fdiv rd ra rb =>
    rcases binaryField_answer fdiv_cases hp h with h | ⟨_, _, c, rfl | rfl, h⟩ | ⟨e, h⟩
    · exact .inl ⟨_, by simp [mayRaise], h⟩
    · exact .inl ⟨_, by simp [mayRaise], h⟩
    · exact .inl ⟨_, by simp [mayRaise], h⟩
    · exact .inr ⟨_, ⟨e, rfl⟩, h⟩
  | finv rd rb =>
    cases hb : s.fe[rb.val] with
    | none => exact .inl ⟨_, by simp [mayRaise], next_inj ((execFinv_invalid hp hb).symm.trans h)⟩
    | some b =>
      by_cases hz : b.value.val = 0
      · exact .inl ⟨_, by simp [mayRaise], next_inj ((execFinv_zero hp hb hz).symm.trans h)⟩
      · exact .inr ⟨_, ⟨_, rfl⟩, next_inj ((execFinv_ok hp hb hz).symm.trans h)⟩
  | feq ra rb =>
    rcases src2_cases s ra rb with ⟨hn, -⟩ | ⟨a, b, ha, hb, -⟩
    · exact .inl ⟨_, by simp [mayRaise], next_inj ((execFeq_invalid hp hn).symm.trans h)⟩
    · by_cases ht : a.tag = b.tag
      · exact .inr ⟨_, ⟨_, rfl⟩, next_inj ((execFeq_ok hp ha hb ht).symm.trans h)⟩
      · exact .inl ⟨_, by simp [mayRaise], next_inj ((execFeq_mismatch hp ha hb ht).symm.trans h)⟩
  | ponc ra =>
    have hr : ra.val % 2 = 0 := by simpa [Instr.wf, Reg.isEven] using hi
    rcases pt_cases s hr with ⟨-, hn⟩ | ⟨x, y, -, -, ⟨-, hm⟩ | ⟨ht, hpt⟩⟩
    · exact .inl ⟨_, by simp [mayRaise], next_inj ((execPonc_error hp hn).symm.trans h)⟩
    · exact .inl ⟨_, by simp [mayRaise], next_inj ((execPonc_error hp hm).symm.trans h)⟩
    · by_cases h0 : x.tag = 0
      · exact .inr ⟨_, ⟨_, rfl⟩, next_inj ((execPonc_of_pt _ hp hpt (onCurve_ok h0 (ht.symm.trans h0))).symm.trans h)⟩
      · exact .inl ⟨_, by simp [mayRaise], next_inj ((execPonc_not_on_tag hp hpt (onCurve_mismatch h0)).symm.trans h)⟩
  | pdbl rd ra =>
    have hw : rd.val % 2 = 0 ∧ ra.val % 2 = 0 := by simpa [Instr.wf, Reg.isEven] using hi
    rcases pt_cases s hw.2 with ⟨-, hn⟩ | ⟨x, y, -, -, ⟨-, hm⟩ | ⟨ht, hpt⟩⟩
    · exact .inl ⟨_, by simp [mayRaise], next_inj ((execPdbl_error hp hw.1 hn).symm.trans h)⟩
    · exact .inl ⟨_, by simp [mayRaise], next_inj ((execPdbl_error hp hw.1 hm).symm.trans h)⟩
    · by_cases hz : y.value.val = 0
      · exact .inl ⟨_, by simp [mayRaise], next_inj ((execPdbl_no_double hp hw.1 hpt (doublePoint_zero ht hz)).symm.trans h)⟩
      · have hd := next_inj ((execPdbl_of_pt hp hw.1 hpt (doublePoint_ok ht hz)).symm.trans h)
        rw [pairY_eq] at hd
        exact .inr ⟨_, ⟨_, _, rfl⟩, hd⟩
  | pser ra =>
    have hr : ra.val % 2 = 0 := by simpa [Instr.wf, Reg.isEven] using hi
    rcases pt_cases s hr with ⟨-, hn⟩ | ⟨x, y, -, -, ⟨-, hm⟩ | ⟨-, hpt⟩⟩
    · exact .inl ⟨_, by simp [mayRaise], next_inj ((execPser_error hp hn).symm.trans h)⟩
    · exact .inl ⟨_, by simp [mayRaise], next_inj ((execPser_error hp hm).symm.trans h)⟩
    · exact .inr ⟨_, ⟨_, _, rfl⟩, next_inj ((execPser_of_pt hp hpt).symm.trans h)⟩
  | addr ra net =>
    have hr : ra.val % 2 = 0 := by simpa [Instr.wf, Reg.isEven] using hi
    rcases pt_cases s hr with ⟨-, hn⟩ | ⟨x, y, -, -, ⟨-, hm⟩ | ⟨-, hpt⟩⟩
    · exact .inl ⟨_, by simp [mayRaise], next_inj ((execAddr_error net hp hn).symm.trans h)⟩
    · exact .inl ⟨_, by simp [mayRaise], next_inj ((execAddr_error net hp hm).symm.trans h)⟩
    · exact .inr ⟨_, ⟨_, _, rfl⟩, next_inj ((execAddr_of_pt net hp hpt).symm.trans h)⟩

end Sys2Proof.Machine
end

