-- ==== Sys2Proof/Laws/Decode.lean ====
section
/-! SUPPORT. Laws of the command word: the fields of an assembled word, the rows of the table, and what a decoded word is. -/

namespace Sys2Proof

variable (op : BitVec 6) (rd ra rb : Reg) (tag : Tag) (imm8 : Byte)

@[simp] theorem opField_assemble : opField (assemble op rd ra rb tag imm8) = op := by
  apply BitVec.eq_of_getLsbD_eq; intro i hi
  simp only [opField, assemble, BitVec.getLsbD_extractLsb', BitVec.getLsbD_append]
  interval_cases i <;> simp

@[simp] theorem rdField_assemble : rdField (assemble op rd ra rb tag imm8) = rd := by
  have h : (assemble op rd ra rb tag imm8).extractLsb' 22 4 = BitVec.ofFin (w := 4) rd := by
    apply BitVec.eq_of_getLsbD_eq; intro i hi
    simp only [assemble, BitVec.getLsbD_extractLsb', BitVec.getLsbD_append]
    interval_cases i <;> simp
  simp [rdField, h]

@[simp] theorem raField_assemble : raField (assemble op rd ra rb tag imm8) = ra := by
  have h : (assemble op rd ra rb tag imm8).extractLsb' 18 4 = BitVec.ofFin (w := 4) ra := by
    apply BitVec.eq_of_getLsbD_eq; intro i hi
    simp only [assemble, BitVec.getLsbD_extractLsb', BitVec.getLsbD_append]
    interval_cases i <;> simp
  simp [raField, h]

@[simp] theorem rbField_assemble : rbField (assemble op rd ra rb tag imm8) = rb := by
  have h : (assemble op rd ra rb tag imm8).extractLsb' 14 4 = BitVec.ofFin (w := 4) rb := by
    apply BitVec.eq_of_getLsbD_eq; intro i hi
    simp only [assemble, BitVec.getLsbD_extractLsb', BitVec.getLsbD_append]
    interval_cases i <;> simp
  simp [rbField, h]

@[simp] theorem tagField_assemble : tagField (assemble op rd ra rb tag imm8) = tag := by
  apply BitVec.eq_of_getLsbD_eq; intro i hi
  simp only [tagField, assemble, BitVec.getLsbD_extractLsb', BitVec.getLsbD_append]
  interval_cases i <;> simp

@[simp] theorem imm8Field_assemble : imm8Field (assemble op rd ra rb tag imm8) = imm8 := by
  apply BitVec.eq_of_getLsbD_eq; intro i hi
  simp only [imm8Field, assemble, BitVec.getLsbD_extractLsb', BitVec.getLsbD_append]
  interval_cases i <;> simp

/-! ### Rows -/

/-- Every row's mask holds all six opcode bits. -/
theorem mask_holds_opcode : ∀ r ∈ opcodeTable, opField r.mask = 0x3F#6 := by decide

/-- No two rows share an opcode (30_encoding.md R90: "no two rows can match one word, since their opcodes differ"). -/
theorem opcodes_differ : (opcodeTable.map fun r => opField r.matchBits).Nodup := by decide

theorem opField_and (w m : Word) : opField (w &&& m) = opField w &&& opField m := by
  apply BitVec.eq_of_getLsbD_eq; intro i hi
  simp [opField, hi]

/-- A word of a row has the row's opcode. -/
theorem opField_of_hit {w : Word} {r : OpcodeRow} (hr : r ∈ opcodeTable) (h : w &&& r.mask = r.matchBits) :
    opField w = opField r.matchBits := by
  have hm : opField w &&& 0x3F#6 = opField r.matchBits := by rw [← h, opField_and, mask_holds_opcode r hr]
  rwa [show (0x3F#6) = BitVec.allOnes 6 from rfl, BitVec.and_allOnes] at hm

/-- A word is of at most one row. -/
theorem hit_unique {w : Word} {r q : OpcodeRow} (hr : r ∈ opcodeTable) (hq : q ∈ opcodeTable)
    (h : w &&& r.mask = r.matchBits) (h' : w &&& q.mask = q.matchBits) : r = q :=
  List.inj_on_of_nodup_map opcodes_differ hr hq ((opField_of_hit hr h).symm.trans (opField_of_hit hq h'))

/-- The decoder reads a word of a row by that row. -/
theorem decode_of_hit {w : Word} {r : OpcodeRow} (hr : r ∈ opcodeTable) (h : w &&& r.mask = r.matchBits) :
    decode w = readOperands r.mnemonic w := by
  unfold decode
  cases hf : opcodeTable.find? (OpcodeRow.hit w) with
  | none =>
    have := List.find?_eq_none.1 hf r hr
    simp [OpcodeRow.hit, h] at this
  | some q =>
    have hq : w &&& q.mask = q.matchBits := by
      have := List.find?_some hf
      simpa [OpcodeRow.hit] using this
    rw [hit_unique hr (List.mem_of_find?_eq_some hf) h hq]

/-- A decoded word is of a row, and is what that row reads. -/
theorem hit_of_decode {w : Word} {i : Instr} (h : decode w = .ok i) :
    ∃ r ∈ opcodeTable, w &&& r.mask = r.matchBits ∧ readOperands r.mnemonic w = .ok i := by
  unfold decode at h
  cases hf : opcodeTable.find? (OpcodeRow.hit w) with
  | none => simp [hf] at h
  | some q =>
    refine ⟨q, List.mem_of_find?_eq_some hf, ?_, by simpa [hf] using h⟩
    have := List.find?_some hf
    simpa [OpcodeRow.hit] using this

/-- A word of no row is rejected. -/
theorem decode_of_no_hit {w : Word} (h : ∀ r ∈ opcodeTable, w &&& r.mask ≠ r.matchBits) :
    decode w = .error (rejectionOf w) := by
  have hf : opcodeTable.find? (OpcodeRow.hit w) = none :=
    List.find?_eq_none.2 fun r hr => by simpa [OpcodeRow.hit] using h r hr
  simp [decode, hf]

/-- The row of a command. -/
def rowOf : Instr → OpcodeRow
  | .fld _ _ => ⟨.FLD, 0x04000000#32, 0xFC3FCFFF#32⟩
  | .fldc _ _ => ⟨.FLDC, 0x08000000#32, 0xFC3FFFFC#32⟩
  | .fst _ => ⟨.FST, 0x0C000000#32, 0xFFC3FFFF#32⟩
  | .fadd _ _ _ => ⟨.FADD, 0x10000000#32, 0xFC003FFF#32⟩
  | .fsub _ _ _ => ⟨.FSUB, 0x14000000#32, 0xFC003FFF#32⟩
  | .fmul _ _ _ => ⟨.FMUL, 0x18000000#32, 0xFC003FFF#32⟩
  | .fdiv _ _ _ => ⟨.FDIV, 0x1C000000#32, 0xFC003FFF#32⟩
  | .finv _ _ => ⟨.FINV, 0x20000000#32, 0xFC3C3FFF#32⟩
  | .feq _ _ => ⟨.FEQ, 0x24000000#32, 0xFFC03FFF#32⟩
  | .ponc _ => ⟨.PONC, 0x40000000#32, 0xFFC7FFFF#32⟩
  | .pdbl _ _ => ⟨.PDBL, 0x44000000#32, 0xFC47FFFF#32⟩
  | .pser _ => ⟨.PSER, 0x60000000#32, 0xFFC7FFFF#32⟩
  | .addr _ _ => ⟨.ADDR, 0x80000000#32, 0xFFC7FF00#32⟩

theorem rowOf_mem (i : Instr) : rowOf i ∈ opcodeTable := by
  cases i <;> simp [rowOf, opcodeTable]

/-- A decoded word is of its command's row. -/
theorem rowOf_hit {w : Word} {i : Instr} (h : decode w = .ok i) :
    w &&& (rowOf i).mask = (rowOf i).matchBits ∧ readOperands (rowOf i).mnemonic w = .ok i := by
  obtain ⟨r, hr, hw, ho⟩ := hit_of_decode h
  simp only [opcodeTable, List.mem_cons, List.not_mem_nil, or_false] at hr
  rcases hr with rfl | rfl | rfl | rfl | rfl | rfl | rfl | rfl | rfl | rfl | rfl | rfl | rfl
  case inr.inr.inr.inr.inr.inr.inr.inr.inr.inr.inr.inr =>
    have ho' := ho
    simp only [readOperands] at ho'
    split at ho'
    · injection ho' with ho'
      subst ho'
      exact ⟨hw, ho⟩
    · cases ho'
  all_goals
    have ho' := ho
    injection ho' with ho'
    subst ho'
    exact ⟨hw, ho⟩

/-- A must-be-zero bit of the row, a bit of the mask and not of the match, is 0 in a word of the row (30_encoding.md R83). -/
theorem zero_of_hit {w m v : Word} (n : Nat) (h : w &&& m = v) (hm : m.getLsbD n = true) (hv : v.getLsbD n = false) :
    w.getLsbD n = false := by
  have hb := congrArg (fun x : Word => x.getLsbD n) h
  simpa [hm, hv] using hb

/-- A register field whose lowest bit is 0 is even. -/
theorem even_of_bit (w : Word) (k : Nat) (h : w.getLsbD k = false) : ((w.extractLsb' k 4).toFin : Reg).val % 2 = 0 := by
  have hb : (w.extractLsb' k 4).getLsbD 0 = false := by simpa using h
  generalize w.extractLsb' k 4 = v at hb
  revert v
  decide

/-- The decoder answers well-formed commands only (30_encoding.md R83). -/
theorem decode_wf {w : Word} {i : Instr} (h : decode w = .ok i) : i.wf = true := by
  obtain ⟨hw, ho⟩ := rowOf_hit h
  cases i with
  | ponc ra =>
    change w &&& 0xFFC7FFFF#32 = 0x40000000#32 at hw
    injection ho with ho
    injection ho with ho
    have := even_of_bit w 18 (zero_of_hit 18 hw (by decide) (by decide))
    simpa [Instr.wf, Reg.isEven, ← ho, raField] using this
  | pdbl rd ra =>
    change w &&& 0xFC47FFFF#32 = 0x44000000#32 at hw
    injection ho with ho
    injection ho with hd ha
    have h1 := even_of_bit w 18 (zero_of_hit 18 hw (by decide) (by decide))
    have h2 := even_of_bit w 22 (zero_of_hit 22 hw (by decide) (by decide))
    simp only [Instr.wf, Reg.isEven, ← hd, ← ha, rdField, raField, Bool.and_eq_true, beq_iff_eq]
    exact ⟨h2, h1⟩
  | pser ra =>
    change w &&& 0xFFC7FFFF#32 = 0x60000000#32 at hw
    injection ho with ho
    injection ho with ho
    have := even_of_bit w 18 (zero_of_hit 18 hw (by decide) (by decide))
    simpa [Instr.wf, Reg.isEven, ← ho, raField] using this
  | addr ra net =>
    change w &&& 0xFFC7FF00#32 = 0x80000000#32 at hw
    have h1 := even_of_bit w 18 (zero_of_hit 18 hw (by decide) (by decide))
    simp only [rowOf, readOperands] at ho
    split at ho
    · injection ho with ho
      injection ho with ho
      simpa [Instr.wf, Reg.isEven, ← ho, raField] using h1
    · cases ho
  | _ => rfl

/-- A word whose res field is 0 is assembled from its own fields (30_encoding.md R80). -/
theorem assemble_fields (w : Word) (h : w.extractLsb' 8 4 = 0#4) :
    assemble (opField w) (rdField w) (raField w) (rbField w) (tagField w) (imm8Field w) = w := by
  apply BitVec.eq_of_getLsbD_eq
  intro i hi
  have h8 := congrArg (fun v : BitVec 4 => v.getLsbD 0) h
  have h9 := congrArg (fun v : BitVec 4 => v.getLsbD 1) h
  have h10 := congrArg (fun v : BitVec 4 => v.getLsbD 2) h
  have h11 := congrArg (fun v : BitVec 4 => v.getLsbD 3) h
  simp only [BitVec.getLsbD_extractLsb'] at h8 h9 h10 h11
  simp only [assemble, BitVec.getLsbD_append, opField, rdField, raField, rbField, tagField, imm8Field, BitVec.ofFin_toFin,
    BitVec.getLsbD_extractLsb', BitVec.getLsbD_zero]
  interval_cases i <;> simp_all

end Sys2Proof
end

