-- ==== Sys2Proof/Laws/PerInstr.lean ====
section
/-! SUPPORT. The family of statements made instruction by instruction: RowMatch, that the word of a well-formed command is of the
command's row of 30_encoding.md R84. -/

namespace Sys2Proof.Laws.RowMatch

/-- The word of a well-formed command has the row's match under the row's mask. -/
def Statement (i : Instr) : Prop := i.wf = true → encode i &&& (rowOf i).mask = (rowOf i).matchBits

theorem fld (rd : Reg) (tag : Tag) : Statement (.fld rd tag) := by
  intro _; revert rd tag; decide +kernel

theorem fldc (rd : Reg) (k : ConstSel) : Statement (.fldc rd k) := by
  intro _; cases k <;> (revert rd; decide +kernel)

theorem fst (ra : Reg) : Statement (.fst ra) := by
  intro _; revert ra; decide +kernel

theorem fadd (rd ra rb : Reg) : Statement (.fadd rd ra rb) := by
  intro _
  apply BitVec.eq_of_getLsbD_eq; intro i hi
  simp only [encode, rowOf, assemble, BitVec.getLsbD_and, BitVec.getLsbD_append]
  interval_cases i <;> simp

theorem fsub (rd ra rb : Reg) : Statement (.fsub rd ra rb) := by
  intro _
  apply BitVec.eq_of_getLsbD_eq; intro i hi
  simp only [encode, rowOf, assemble, BitVec.getLsbD_and, BitVec.getLsbD_append]
  interval_cases i <;> simp

theorem fmul (rd ra rb : Reg) : Statement (.fmul rd ra rb) := by
  intro _
  apply BitVec.eq_of_getLsbD_eq; intro i hi
  simp only [encode, rowOf, assemble, BitVec.getLsbD_and, BitVec.getLsbD_append]
  interval_cases i <;> simp

theorem fdiv (rd ra rb : Reg) : Statement (.fdiv rd ra rb) := by
  intro _
  apply BitVec.eq_of_getLsbD_eq; intro i hi
  simp only [encode, rowOf, assemble, BitVec.getLsbD_and, BitVec.getLsbD_append]
  interval_cases i <;> simp

theorem finv (rd rb : Reg) : Statement (.finv rd rb) := by
  intro _; revert rd rb; decide +kernel

theorem feq (ra rb : Reg) : Statement (.feq ra rb) := by
  intro _; revert ra rb; decide +kernel

theorem ponc (ra : Reg) : Statement (.ponc ra) := by
  unfold Statement; revert ra; decide +kernel

theorem pdbl (rd ra : Reg) : Statement (.pdbl rd ra) := by
  unfold Statement; revert rd ra; decide +kernel

theorem pser (ra : Reg) : Statement (.pser ra) := by
  unfold Statement; revert ra; decide +kernel

theorem addr (ra : Reg) (net : Network) : Statement (.addr ra net) := by
  unfold Statement; cases net <;> (revert ra; decide +kernel)

end Sys2Proof.Laws.RowMatch
end

