-- ==== Sys2Proof/Laws/Prime.lean ====
section
/-! SUPPORT. P is prime, by a Pratt certificate that Lean's kernel evaluates. The spec takes it from general knowledge ("strong
evidence, not a proof", 00_scope.md R11; 93_implementation_defined.md G6); here it is proved, and the field laws of
40_field_arithmetic.md R112 rest on it. -/

namespace Sys2Proof.Machine

/-- What a Pratt certificate checks of p: the factors multiply to p - 1, the witness has order p - 1. -/
def prattCheck (p a : Nat) (factors : List Nat) : Bool :=
  factors.prod == p - 1 && powMod p a (p - 1) == 1 && factors.all fun q => powMod p a ((p - 1) / q) != 1

theorem prime_dvd_prod_mem {q : Nat} (hq : q.Prime) {factors : List Nat} (hf : ∀ r ∈ factors, r.Prime)
    (h : q ∣ factors.prod) : q ∈ factors := by
  obtain ⟨r, hr, hqr⟩ := (Prime.dvd_prod_iff hq.prime).1 h
  rwa [(Nat.prime_dvd_prime_iff_eq hq (hf r hr)).1 hqr]

/-- Lucas' criterion on a Pratt certificate. -/
theorem prime_of_prattCheck (p a : Nat) (factors : List Nat) (hp : 1 < p) (hp' : p ≤ 2 ^ 256)
    (hf : ∀ r ∈ factors, r.Prime) (h : prattCheck p a factors = true) : p.Prime := by
  simp only [prattCheck, Bool.and_eq_true, beq_iff_eq, List.all_eq_true, bne_iff_ne] at h
  obtain ⟨⟨hprod, hone⟩, hne⟩ := h
  have hcast : ∀ e : Nat, e < 2 ^ 256 → ((a : ZMod p) ^ e = 1 ↔ powMod p a e = 1) := by
    intro e he
    rw [powMod_eq p a e hp he, ← Nat.cast_pow, ← Nat.cast_one, ZMod.natCast_eq_natCast_iff, Nat.ModEq,
      Nat.mod_eq_of_lt hp]
  refine lucas_primality p (a : ZMod p) ((hcast _ (by omega)).2 hone) fun q hq hqd => ?_
  have hmem : q ∈ factors := prime_dvd_prod_mem hq hf (hprod ▸ hqd)
  have hlt : (p - 1) / q < 2 ^ 256 := lt_of_le_of_lt (Nat.div_le_self _ _) (by omega)
  exact fun hpow => hne q hmem ((hcast _ hlt).1 hpow)

theorem prime_173378833005251801 : Nat.Prime 173378833005251801 :=
  prime_of_prattCheck _ 6 [2, 2, 2, 5, 5, 2621, 24809, 13331831] (by norm_num) (by norm_num) (by
    intro r hr; simp only [List.mem_cons, List.not_mem_nil, or_false] at hr
    rcases hr with rfl | rfl | rfl | rfl | rfl | rfl | rfl | rfl <;> norm_num) (by decide +kernel)

theorem prime_22149492674086928081353 : Nat.Prime 22149492674086928081353 :=
  prime_of_prattCheck _ 5 [2, 2, 2, 3, 5323, 173378833005251801] (by norm_num) (by norm_num) (by
    intro r hr; simp only [List.mem_cons, List.not_mem_nil, or_false] at hr
    rcases hr with rfl | rfl | rfl | rfl | rfl | rfl <;>
      first | exact prime_173378833005251801 | norm_num) (by decide +kernel)

theorem prime_132896956044521568488119 : Nat.Prime 132896956044521568488119 :=
  prime_of_prattCheck _ 6 [2, 3, 22149492674086928081353] (by norm_num) (by norm_num) (by
    intro r hr; simp only [List.mem_cons, List.not_mem_nil, or_false] at hr
    rcases hr with rfl | rfl | rfl <;> first | exact prime_22149492674086928081353 | norm_num) (by decide +kernel)

theorem prime_255515944373312847190720520512484175977 : Nat.Prime 255515944373312847190720520512484175977 :=
  prime_of_prattCheck _ 3 [2, 2, 2, 7, 7, 11, 1627, 2657, 4423, 41201, 96557, 7240687, 107590001] (by norm_num)
    (by norm_num) (by
      intro r hr; simp only [List.mem_cons, List.not_mem_nil, or_false] at hr
      rcases hr with rfl | rfl | rfl | rfl | rfl | rfl | rfl | rfl | rfl | rfl | rfl | rfl | rfl <;> norm_num)
    (by decide +kernel)

theorem prime_factor_of_P_pred :
    Nat.Prime 205115282021455665897114700593932402728804164701536103180137503955397371 :=
  prime_of_prattCheck _ 10
    [2, 3, 5, 29, 29, 31, 7723, 132896956044521568488119, 255515944373312847190720520512484175977] (by norm_num)
    (by norm_num) (by
      intro r hr; simp only [List.mem_cons, List.not_mem_nil, or_false] at hr
      rcases hr with rfl | rfl | rfl | rfl | rfl | rfl | rfl | rfl | rfl <;>
        first
        | exact prime_132896956044521568488119
        | exact prime_255515944373312847190720520512484175977
        | norm_num) (by decide +kernel)

/-- The field modulus is prime. -/
theorem P_prime : Nat.Prime Config.P :=
  prime_of_prattCheck _ 3
    [2, 3, 7, 13441, 205115282021455665897114700593932402728804164701536103180137503955397371] one_lt_P
    (le_of_lt P_lt) (by
      intro r hr; simp only [List.mem_cons, List.not_mem_nil, or_false] at hr
      rcases hr with rfl | rfl | rfl | rfl | rfl <;> first | exact prime_factor_of_P_pred | norm_num) (by decide +kernel)

/-- The Fermat inverse is an inverse: b · b^(P-2) = 1 mod P for b ≠ 0. -/
theorem mul_inverse (b : Residue) (hb : b.val ≠ 0) : b.val * (inverse b).val % Config.P = 1 := by
  have hcop : Nat.Coprime b.val Config.P :=
    (Nat.coprime_of_lt_prime hb b.isLt P_prime).symm
  have hf : b.val ^ (Config.P - 1) % Config.P = 1 := by
    have h := Nat.ModEq.pow_totient hcop
    rw [Nat.totient_prime P_prime] at h
    exact Eq.trans h (Nat.mod_eq_of_lt one_lt_P)
  have hexp : Config.P - 1 = (Config.P - 2) + 1 := by have := one_lt_P; omega
  rw [inverse_val, Nat.mul_mod, Nat.mod_mod, ← Nat.mul_mod, mul_comm, ← pow_succ, ← hexp, hf]

end Sys2Proof.Machine
end

