-- ==== Sys2Proof/Laws/Window.lean ====
section
/-! SUPPORT. Laws of the host window: the register at each listed offset, and what a host access can do. -/

namespace Sys2Proof.Machine

/-! ### The register map at its offsets (20_memory.md R52) -/

@[simp] theorem windowReg_cmd : windowReg 0x000 = .cmd := by decide
@[simp] theorem windowReg_status : windowReg 0x004 = .status := by decide
@[simp] theorem windowReg_ctrl : windowReg 0x008 = .ctrl := by decide
@[simp] theorem windowReg_errinfo : windowReg 0x00C = .errinfo := by decide
@[simp] theorem windowReg_dtag : windowReg 0x010 = .dtag := by decide

theorem windowReg_din {k : Nat} (h : k ≤ 7) : windowReg (BitVec.ofNat 12 (0x020 + 4 * k)) = .din k := by
  interval_cases k <;> decide
theorem windowReg_dout {k : Nat} (h : k ≤ 7) : windowReg (BitVec.ofNat 12 (0x040 + 4 * k)) = .dout k := by
  interval_cases k <;> decide
theorem windowReg_out {k : Nat} (h : k ≤ 8) : windowReg (BitVec.ofNat 12 (0x060 + 4 * k)) = .out k := by
  interval_cases k <;> decide
theorem windowReg_constP {k : Nat} (h : k ≤ 7) : windowReg (BitVec.ofNat 12 (0x0A0 + 4 * k)) = .constP k := by
  interval_cases k <;> decide
theorem windowReg_constB {k : Nat} (h : k ≤ 7) : windowReg (BitVec.ofNat 12 (0x0C0 + 4 * k)) = .constB k := by
  interval_cases k <;> decide
theorem windowReg_constGx {k : Nat} (h : k ≤ 7) : windowReg (BitVec.ofNat 12 (0x0E0 + 4 * k)) = .constGx k := by
  interval_cases k <;> decide
theorem windowReg_constGy {k : Nat} (h : k ≤ 7) : windowReg (BitVec.ofNat 12 (0x100 + 4 * k)) = .constGy k := by
  interval_cases k <;> decide

/-- What an offset must be for a register to stand at it. -/
def WindowRegFits (o : Nat) : WindowReg → Prop
  | .cmd => o = 0x000
  | .status => o = 0x004
  | .ctrl => o = 0x008
  | .errinfo => o = 0x00C
  | .dtag => o = 0x010
  | .din k => 0x020 ≤ o ∧ o ≤ 0x03C ∧ k = (o - 0x020) / 4
  | .dout k => 0x040 ≤ o ∧ o ≤ 0x05C ∧ k = (o - 0x040) / 4
  | .out k => 0x060 ≤ o ∧ o ≤ 0x080 ∧ k = (o - 0x060) / 4
  | .constP k => 0x0A0 ≤ o ∧ o ≤ 0x0BC ∧ k = (o - 0x0A0) / 4
  | .constB k => 0x0C0 ≤ o ∧ o ≤ 0x0DC ∧ k = (o - 0x0C0) / 4
  | .constGx k => 0x0E0 ≤ o ∧ o ≤ 0x0FC ∧ k = (o - 0x0E0) / 4
  | .constGy k => 0x100 ≤ o ∧ o ≤ 0x11C ∧ k = (o - 0x100) / 4
  | .unmapped =>
    ¬ (o = 0x000 ∨ o = 0x004 ∨ o = 0x008 ∨ o = 0x00C ∨ o = 0x010) ∧ ¬ (0x020 ≤ o ∧ o ≤ 0x03C) ∧ ¬ (0x040 ≤ o ∧ o ≤ 0x05C) ∧
      ¬ (0x060 ≤ o ∧ o ≤ 0x080) ∧ ¬ (0x0A0 ≤ o ∧ o ≤ 0x0BC) ∧ ¬ (0x0C0 ≤ o ∧ o ≤ 0x0DC) ∧ ¬ (0x0E0 ≤ o ∧ o ≤ 0x0FC) ∧
      ¬ (0x100 ≤ o ∧ o ≤ 0x11C)

theorem windowRegFits_ite {o : Nat} {c : Prop} [Decidable c] {a b : WindowReg} (ha : c → WindowRegFits o a)
    (hb : ¬ c → WindowRegFits o b) : WindowRegFits o (if c then a else b) := by
  split
  · exact ha ‹_›
  · exact hb ‹_›

/-- The whole map, read backwards: the register at an offset tells where the offset lies. -/
theorem windowReg_fits (off : Offset) : WindowRegFits off.toNat (windowReg off) := by
  unfold windowReg
  generalize off.toNat = o
  repeat' (refine windowRegFits_ite (fun h => ?_) (fun h => ?_))
  all_goals first
    | exact ⟨h.1, h.2, rfl⟩
    | (simp only [WindowRegFits]; omega)

/-- Only offset 0 is CMD. -/
theorem windowReg_eq_cmd {off : Offset} (h : windowReg off = .cmd) : off.toNat = 0x000 := by
  have hf := windowReg_fits off
  rwa [h] at hf

/-- Only offset 8 is CTRL. -/
theorem windowReg_eq_ctrl {off : Offset} (h : windowReg off = .ctrl) : off.toNat = 0x008 := by
  have hf := windowReg_fits off
  rwa [h] at hf

/-- The words of DIN stand at 0x020 to 0x03C only. -/
theorem windowReg_eq_din {off : Offset} {k : Nat} (h : windowReg off = .din k) :
    0x020 ≤ off.toNat ∧ off.toNat ≤ 0x03C := by
  have hf := windowReg_fits off
  rw [h] at hf
  exact ⟨hf.1, hf.2.1⟩

/-! ### Host accesses -/

/-- Everything a host write can do (20_memory.md R53, R58, R61): a command offer at CMD, a clear or a reset at CTRL, a new DIN, or
nothing. -/
theorem hostWrite_cases (s : State) (off : Offset) (w : Word) :
    (off.toNat = 0x000 ∧ s.hostWrite off w = s.offerCommand w) ∨
    (off.toNat = 0x008 ∧ s.hostWrite off w = s.writeCtrl w) ∨
    (∃ d, 0x020 ≤ off.toNat ∧ off.toNat ≤ 0x03C ∧ s.hostWrite off w = { s with din := d }) ∨
    s.hostWrite off w = s := by
  unfold State.hostWrite
  cases h : windowReg off with
  | cmd => exact .inl ⟨windowReg_eq_cmd h, rfl⟩
  | ctrl => exact .inr (.inl ⟨windowReg_eq_ctrl h, rfl⟩)
  | din k => exact .inr (.inr (.inl ⟨_, (windowReg_eq_din h).1, (windowReg_eq_din h).2, rfl⟩))
  | status => exact .inr (.inr (.inr rfl))
  | errinfo => exact .inr (.inr (.inr rfl))
  | dtag => exact .inr (.inr (.inr rfl))
  | dout _ => exact .inr (.inr (.inr rfl))
  | out _ => exact .inr (.inr (.inr rfl))
  | constP _ => exact .inr (.inr (.inr rfl))
  | constB _ => exact .inr (.inr (.inr rfl))
  | constGx _ => exact .inr (.inr (.inr rfl))
  | constGy _ => exact .inr (.inr (.inr rfl))
  | unmapped => exact .inr (.inr (.inr rfl))

/-- A command offer is accepted exactly when BUSY = 0 and ERR = 0 (20_memory.md R58). -/
theorem offerCommand_accepted {s : State} (w : Word) (hp : s.pend = none) (he : s.err = false) :
    s.offerCommand w = { s with pend := some ⟨w, s.din⟩ } := by
  simp [State.offerCommand, State.busy, hp, he]

theorem offerCommand_dropped {s : State} (w : Word) (h : s.pend ≠ none ∨ s.err = true) :
    s.offerCommand w = { s with drop := true } := by
  unfold State.offerCommand
  rw [if_neg]
  rintro ⟨hb, he⟩
  rcases h with hp | hr
  · exact hp (by simpa [State.busy] using hb)
  · simp [hr] at he

theorem hostStep_read {s : State} {off : Offset} (h : off.toNat % 4 = 0) :
    s.hostStep (.read off) = .next { s with hostReads := s.hostRead off :: s.hostReads } := by
  simp [State.hostStep, Offset.aligned, h]

theorem hostStep_write {s : State} {off : Offset} {w : Word} (h : off.toNat % 4 = 0) :
    s.hostStep (.write off w) = .next (s.hostWrite off w) := by
  simp [State.hostStep, Offset.aligned, h]

theorem hostStep_read_misaligned {s : State} {off : Offset} (h : off.toNat % 4 ≠ 0) :
    s.hostStep (.read off) = .refused .accessOutsideContract := by
  simp [State.hostStep, Offset.aligned, h]

theorem hostStep_write_misaligned {s : State} {off : Offset} {w : Word} (h : off.toNat % 4 ≠ 0) :
    s.hostStep (.write off w) = .refused .accessOutsideContract := by
  simp [State.hostStep, Offset.aligned, h]

/-- Everything one host access can do: a read answers its word and changes nothing else, a write is a host write, and an access outside
the contract has no step. -/
theorem hostStep_cases {s t : State} {a : HostAccess} (h : s.hostStep a = .next t) :
    (∃ off, a = .read off ∧ off.toNat % 4 = 0 ∧ t = { s with hostReads := s.hostRead off :: s.hostReads }) ∨
    (∃ off w, a = .write off w ∧ off.toNat % 4 = 0 ∧ t = s.hostWrite off w) := by
  cases a with
  | read off =>
    by_cases ha : off.toNat % 4 = 0
    · rw [hostStep_read ha] at h
      injection h with h
      exact .inl ⟨off, rfl, ha, h.symm⟩
    · rw [hostStep_read_misaligned ha] at h
      cases h
  | write off w =>
    by_cases ha : off.toNat % 4 = 0
    · rw [hostStep_write ha] at h
      injection h with h
      exact .inr ⟨off, w, rfl, ha, h.symm⟩
    · rw [hostStep_write_misaligned ha] at h
      cases h
  | otherWidth _ _ => cases h

end Sys2Proof.Machine
end

