-- ==== Sys2Proof/Laws/Step.lean ====
section
/-! SUPPORT. What one step can do, said once: the ENGINE's step, a host access, a reset, or a turn that passes. -/

namespace Sys2Proof.Machine

/-- Every meaning is a completion: some rule whose effects it applies, or whose cause it latches. -/
theorem exec_is_complete (i : Instr) (s : State) : ∃ rule, exec i s = s.complete rule := by
  cases i with
  | fld rd tag => exact ⟨fun p => .ok (s.writeFe rd ⟨residue p.din.toNat, tag⟩), rfl⟩
  | fldc rd k => exact ⟨fun _ => .ok (s.writeFe rd (constOf k)), rfl⟩
  | _ => exact ⟨_, rfl⟩

/-- With a command pending every meaning answers a next state. -/
theorem exec_next (i : Instr) (s : State) (p : Pending) (h : s.pend = some p) : ∃ t, exec i s = .next t := by
  obtain ⟨rule, hr⟩ := exec_is_complete i s
  rw [hr]
  exact complete_next s p rule h

/-- With PEND empty no meaning runs. -/
theorem exec_idle (i : Instr) (s : State) (h : s.pend = none) : exec i s = .fault .engineIdle := by
  obtain ⟨rule, hr⟩ := exec_is_complete i s
  rw [hr, complete_idle s rule h]

/-- The ENGINE executes a pending word that decodes. -/
theorem engineStep_decoded {s : State} {p : Pending} {i : Instr} (hp : s.pend = some p) (hd : decode p.cmd = .ok i) :
    engineStep s = exec i s := by
  simp [engineStep, hp, hd]

/-- The ENGINE raises IllegalCommand for a pending word that does not (60_exceptions.md R201). -/
theorem engineStep_illegal {s : State} {p : Pending} {r : Illegal} (hp : s.pend = some p) (hd : decode p.cmd = .error r) :
    engineStep s = .next (s.errorCompletion .illegalCommand p.cmd) := by
  simp only [engineStep, hp, hd]
  exact complete_error s p _ _ hp rfl

/-- Everything the ENGINE's step can do. -/
theorem engineStep_cases {s t : State} (h : engineStep s = .next t) :
    ∃ p, s.pend = some p ∧
      ((∃ i, decode p.cmd = .ok i ∧ exec i s = .next t) ∨
        (∃ r, decode p.cmd = .error r) ∧ t = s.errorCompletion .illegalCommand p.cmd) := by
  cases hp : s.pend with
  | none => simp [engineStep, hp] at h
  | some p =>
    refine ⟨p, rfl, ?_⟩
    cases hd : decode p.cmd with
    | ok i => exact .inl ⟨i, rfl, by rwa [engineStep_decoded hp hd] at h⟩
    | error r =>
      rw [engineStep_illegal hp hd] at h
      injection h with h
      exact .inr ⟨⟨r, rfl⟩, h.symm⟩

theorem step_no_turn {s : State} (h : s.turns = []) : step s = engineStep s := by
  simp [step, State.advance, h]

theorem step_turn {s : State} {t : Turn} {rest : List Turn} (h : s.turns = t :: rest) :
    step s = ({ s with turns := rest } : State).takeTurn t := by
  simp [step, State.advance, h]

/-- With a command pending and the ENGINE next, by its turn or because no turn is listed, the step is the ENGINE's. -/
theorem step_engine_next {s : State} {rest : List Turn} {p : Pending}
    (h : s.turns = .engine :: rest ∨ (s.turns = [] ∧ rest = [])) (hp : s.pend = some p) :
    step s = engineStep { s with turns := rest } := by
  rcases h with h | ⟨h, rfl⟩
  · rw [step_turn h]
    simp [State.takeTurn, State.busy, hp]
  · rw [step_no_turn h]
    congr 1
    cases s
    simp_all

/-- Everything one step can do. -/
theorem step_cases {s t : State} (h : step s = .next t) :
    (s.turns = [] ∧ engineStep s = .next t) ∨
    ∃ turn rest, s.turns = turn :: rest ∧
      ((turn = .engine ∧ s.pend ≠ none ∧ engineStep { s with turns := rest } = .next t) ∨
        (turn = .engine ∧ s.pend = none ∧ t = { s with turns := rest }) ∨
        (∃ a, turn = .host a ∧ ({ s with turns := rest } : State).hostStep a = .next t) ∨
        (turn = .resetInput ∧ t = ({ s with turns := rest } : State).resetCore)) := by
  cases hs : s.turns with
  | nil => exact .inl ⟨rfl, by rwa [step_no_turn hs] at h⟩
  | cons turn rest =>
    rw [step_turn hs] at h
    refine .inr ⟨turn, rest, rfl, ?_⟩
    cases turn with
    | engine =>
      simp only [State.takeTurn, State.busy] at h
      cases hp : s.pend with
      | none =>
        rw [hp] at h
        injection h with h
        exact .inr (.inl ⟨rfl, rfl, h.symm⟩)
      | some p =>
        rw [hp] at h
        exact .inl ⟨rfl, by simp, h⟩
    | host a => exact .inr (.inr (.inl ⟨a, rfl, h⟩))
    | resetInput =>
      injection h with h
      exact .inr (.inr (.inr ⟨rfl, h.symm⟩))

end Sys2Proof.Machine
end

