-- ==== Sys2Proof/Tests/Slice0.lean ====
section
/-! SUPPORT. The model's own tests, each one step on a small state, with the expected result from spec/95_test_vectors.md (its row is named)
or spec/30_encoding.md R88; and a witness for the hypotheses of each statement. -/

namespace Sys2Proof.Tests

set_option Elab.async false

open Sys2Proof.Machine

/-! ### Helpers -/

/-- The generator, and its negation's Y (95_test_vectors.md D3). -/
abbrev gx : Nat := 0x79BE667EF9DCBBAC55A06295CE870B07029BFCDB2DCE28D959F2815B16F81798
abbrev gy : Nat := 0x483ADA7726A3C4655DA4FBFC0E1108A8FD17B448A68554199C47D08FFB10D4B8
abbrev negGy : Nat := 0xB7C52588D95C3B9AA25B0403F1EEF75702E84BB7597AABE663B82F6F04EF2777

/-- An element. -/
def el (v : Nat) (t : Tag) : Elem := ⟨residue v, t⟩

/-- The reset state with the listed registers preset and a command pending. -/
def ready (w : Word) (regs : List (Reg × Elem)) (din : Raw256 := 0) : State :=
  { regs.foldl (fun s x => s.writeFe x.1 x.2) State.reset with pend := some ⟨w, din⟩ }

/-- What a view shows of the next state. -/
def after {α : Type} (o : StepOutcome) (view : State → α) : Option α :=
  match o with
  | .next t => some (view t)
  | .fault _ => none
  | .refused _ => none

/-- A register, as a number and a tag. -/
def reg (r : Reg) (s : State) : Option (Nat × Tag) := s.fe[r.val].map fun e => (e.value.val, e.tag)

/-- The command ended in an error of this code with this word (60_exceptions.md R203). -/
def failedWith (c : BitVec 4) (w : Word) (s : State) : Bool := s.err && s.errcause == c && s.errinfo == w && s.pend.isNone

/-- The instruction of a word, if it is one. -/
def command? (w : Word) : Option Instr :=
  match decode w with
  | .ok i => some i
  | .error _ => none

/-! ### WellFormed: each check refuses (30_encoding.md R81, R83) -/

theorem test_wf_refuses_odd_ponc : Instr.wf (.ponc 1) = false := by decide
theorem test_wf_refuses_odd_pdbl_destination : Instr.wf (.pdbl 3 0) = false := by decide
theorem test_wf_refuses_odd_pdbl_source : Instr.wf (.pdbl 2 15) = false := by decide
theorem test_wf_refuses_odd_pser : Instr.wf (.pser 15) = false := by decide
theorem test_wf_refuses_odd_addr : Instr.wf (.addr 7 .mainnet) = false := by decide
theorem test_wf_takes_every_register_of_a_field_command : ∀ a b c : Reg, Instr.wf (.fadd a b c) = true := by decide

/-! ### Decoding: words written out bit by bit from the patterns of 30_encoding.md R84 -/

/-- op 000001, rd 0010, must be zero, tag 01, zeros (R88). -/
theorem test_decode_fld : decode 0b00000100100000000001000000000000#32 = .ok (.fld 2 1) := by decide
theorem test_decode_fldc : decode 0b00001000000000000000000000000001#32 = .ok (.fldc 0 .gx) := by decide
theorem test_decode_fldc_indexes :
    decode 0b00001000100000000000000000000000#32 = .ok (.fldc 2 .b) ∧
    decode 0b00001000100000000000000000000010#32 = .ok (.fldc 2 .gy) ∧
    decode 0b00001000100000000000000000000011#32 = .ok (.fldc 2 .one) := by decide
theorem test_decode_fst : decode 0b00001100000101000000000000000000#32 = .ok (.fst 5) := by decide
theorem test_decode_fadd : decode 0b00010000110001001000000000000000#32 = .ok (.fadd 3 1 2) := by decide
theorem test_decode_fsub : decode 0b00010100110001001000000000000000#32 = .ok (.fsub 3 1 2) := by decide
theorem test_decode_fmul : decode 0b00011000110001001000000000000000#32 = .ok (.fmul 3 1 2) := by decide
theorem test_decode_fdiv : decode 0b00011100110001001000000000000000#32 = .ok (.fdiv 3 1 2) := by decide
theorem test_decode_finv : decode 0b00100000110000001000000000000000#32 = .ok (.finv 3 2) := by decide
theorem test_decode_feq : decode 0b00100100000001001000000000000000#32 = .ok (.feq 1 2) := by decide
theorem test_decode_ponc : decode 0b01000000001110000000000000000000#32 = .ok (.ponc 14) := by decide
theorem test_decode_pdbl : decode 0b01000111100010000000000000000000#32 = .ok (.pdbl 14 2) := by decide
theorem test_decode_pser : decode 0b01100000000010000000000000000000#32 = .ok (.pser 2) := by decide
theorem test_decode_addr : decode 0b10000000001000000000000000000000#32 = .ok (.addr 8 .mainnet) := by decide
theorem test_decode_addr_testnet : decode 0b10000000000000000000000001101111#32 = .ok (.addr 0 .testnet) := by decide
theorem test_encode_fadd_r15 : encode (.fadd 15 15 15) = 0x13FFC000#32 := by decide

/-- The illegal words of 95_test_vectors.md section 6. -/
theorem test_decode_refuses :
    ([0x00000000, 0x04004000, 0x04000100, 0x08000004, 0x0C3C3000, 0x20C48000, 0x24400000, 0x28000000, 0x40040000, 0x44400000, 0x48000000,
      0x64000000, 0x80000070, 0x80000005, 0xFC000000, 0xFFFFFFFF] : List Word).all (fun w => (command? w).isNone) = true := by decide

/-- Each name of a rejection is given somewhere. -/
theorem test_decode_names_its_refusals :
    decode 0x28000000#32 = .error .reservedOpcode ∧ decode 0x10000100#32 = .error .mustBeZero ∧
    decode 0x80000001#32 = .error .networkByte := by decide

theorem test_decodeTableWord : decodeTableWord 32 0x44800000 = some (.pdbl 2 0) ∧ decodeTableWord 32 0x44400000 = none := by decide

/-! ### modular_field_arithmetic (95_test_vectors.md section 3) -/

/-- F6. -/
theorem test_fld_reduces_once :
    after (step (ready 0x04400000 [] 0xFFFFFFFFFFFFFFFFFFFFFFFFFFFFFFFFFFFFFFFFFFFFFFFFFFFFFFFFFFFFFFFF)) (reg 1) = some (some (0x1000003D0, 0)) := by decide +kernel

/-- F7. -/
theorem test_fld_keeps_the_tag :
    after (step (ready 0x04403000 [] 9)) (reg 1) = some (some (9, 3)) := by decide +kernel

/-- F10. -/
theorem test_fldc_gx :
    after (step (ready 0x08800001 [])) (reg 2) = some (some (gx, 0)) := by decide +kernel

/-- F9. -/
theorem test_fldc_b :
    after (step (ready 0x08800000 [])) (reg 2) = some (some (7, 0)) := by decide +kernel

/-- F14. -/
theorem test_fst :
    after (step (ready 0x0C0C0000 [(3, el 0x1000003D0 2)])) (fun t => (t.dout, t.dtag)) = some (0x1000003D0#256, 2#2) := by decide +kernel

/-- F15. -/
theorem test_fst_unwritten :
    after (step (ready 0x0C0C0000 [])) (fun t => (failedWith 2 0x0C0C0000 t, t.dout)) = some (true, 0#256) := by decide +kernel

/-- F17. -/
theorem test_fadd_wraps :
    after (step (ready 0x10C48000 [(1, el (Config.P - 1) 0), (2, el 1 0)])) (reg 3) = some (some (0, 0)) := by decide +kernel

/-- F43. -/
theorem test_fadd_unwritten_before_mismatch :
    after (step (ready 0x10C48000 [(2, el 1 1)])) (failedWith 2 0x10C48000) = some true := by decide +kernel

/-- F22. -/
theorem test_fsub_borrows :
    after (step (ready 0x14C48000 [(1, el 3 0), (2, el 5 0)])) (reg 3) =
      some (some (0xFFFFFFFFFFFFFFFFFFFFFFFFFFFFFFFFFFFFFFFFFFFFFFFFFFFFFFFEFFFFFC2D, 0)) := by decide +kernel

/-- F26. -/
theorem test_fsub_order_of_operands :
    after (step (ready 0x14C48000 [(1, el gy 0), (2, el gx 0)])) (reg 3) =
      some (some (0xCE7C73F82CC708B9080499663F89FDA1FA7BB76D78B72B4042554F33E418B94F, 0)) := by decide +kernel

/-- F30. -/
theorem test_fmul_across_2_256 :
    after (step (ready 0x18C48000 [(1, el (2 ^ 128) 0), (2, el (2 ^ 128) 0)])) (reg 3) = some (some (0x1000003D1, 0)) := by decide +kernel

/-- F39. -/
theorem test_fmul_square_in_place :
    after (step (ready 0x18444000 [(1, el gx 0)])) (reg 1) =
      some (some (0x8550E7D238FCF3086BA9ADCF0FB52A9DE3652194D06CB5BB38D50229B854FC49, 0)) := by decide +kernel

/-- F35. -/
theorem test_fdiv :
    after (step (ready 0x1CC48000 [(1, el gx 0), (2, el gy 0)])) (reg 3) =
      some (some (0x2DB7DA16EF4BD6E01DFAAD38C11521CBC90DDA6DED1975FC41895C5D541F5127, 0)) := by decide +kernel

/-- F41. -/
theorem test_fdiv_mismatch_before_zero :
    after (step (ready 0x1CC48000 [(1, el 1 0), (2, el 0 1)])) (failedWith 3 0x1CC48000) = some true := by decide +kernel

/-- F46. -/
theorem test_finv_keeps_the_tag :
    after (step (ready 0x20C08000 [(2, el 3 2)])) (reg 3) =
      some (some (0xAAAAAAAAAAAAAAAAAAAAAAAAAAAAAAAAAAAAAAAAAAAAAAAAAAAAAAA9FFFFFD75, 2)) := by decide +kernel

/-- F50. -/
theorem test_finv_zero :
    after (step (ready 0x20C08000 [(2, el 0 0)])) (fun t => (failedWith 4 0x20C08000 t, reg 3 t)) = some (true, none) := by decide +kernel

/-- F53, F54. -/
theorem test_feq_sets_and_clears :
    after (step (ready 0x24048000 [(1, el 5 0), (2, el 5 0)])) State.eq = some true ∧
    after (step { ready 0x24048000 [(1, el 5 0), (2, el 6 0)] with eq := true }) State.eq = some false := by decide +kernel

/-- F56. -/
theorem test_feq_mismatch_leaves_eq :
    after (step (ready 0x24048000 [(1, el 5 0), (2, el 5 1)])) (fun t => (failedWith 3 0x24048000 t, t.eq)) = some (true, false) := by decide +kernel

/-! ### secp256k1_point_doubler (95_test_vectors.md section 4) -/

/-- D1, D2. -/
theorem test_ponc_of_g :
    after (step (ready 0x40000000 [(0, el gx 0), (1, el gy 0)])) State.onc = some true ∧
    after (step { ready 0x40000000 [(0, el gx 0), (1, el (gy + 1) 0)] with onc := true }) State.onc = some false := by decide +kernel

/-- D5. -/
theorem test_ponc_needs_tag_0 :
    after (step (ready 0x40000000 [(0, el gx 1), (1, el gy 1)])) (failedWith 3 0x40000000) = some true := by decide +kernel

/-- D13. -/
theorem test_pdbl_of_g_keeps_the_tag :
    after (step (ready 0x44800000 [(0, el gx 2), (1, el gy 2)])) (fun t => (reg 2 t, reg 3 t)) =
      some (some (0xC6047F9441ED7D6D3045406E95C07CD85C778E4B8CEF3CA7ABAC09B95C709EE5, 2),
        some (0x1AE168FEA63DC339A3C58419466CEAEEF7F632653266D0E1236431A950CFE52A, 2)) := by decide +kernel

/-- D16. -/
theorem test_pdbl_in_place :
    after (step (ready 0x44000000 [(0, el gx 0), (1, el gy 0)])) (fun t => (reg 0 t, reg 1 t)) =
      some (some (0xC6047F9441ED7D6D3045406E95C07CD85C778E4B8CEF3CA7ABAC09B95C709EE5, 0),
        some (0x1AE168FEA63DC339A3C58419466CEAEEF7F632653266D0E1236431A950CFE52A, 0)) := by decide +kernel

/-- D14, D15. -/
theorem test_pdbl_mismatch_before_zero :
    after (step (ready 0x44800000 [(0, el gx 0), (1, el 0 0)])) (failedWith 4 0x44800000) = some true ∧
    after (step (ready 0x44800000 [(0, el gx 0), (1, el 0 1)])) (failedWith 3 0x44800000) = some true := by decide +kernel

/-! ### point_serializer (95_test_vectors.md section 5.1) -/

/-- S4. -/
theorem test_pser_of_g :
    after (step (ready 0x60000000 [(0, el gx 3), (1, el gy 3)])) (fun t => (t.outlen, t.out.toList)) =
      some (33#6,
        [0x02#8, 0x79#8, 0xBE#8, 0x66#8, 0x7E#8, 0xF9#8, 0xDC#8, 0xBB#8, 0xAC#8, 0x55#8, 0xA0#8, 0x62#8, 0x95#8, 0xCE#8, 0x87#8, 0x0B#8,
        0x07#8, 0x02#8, 0x9B#8, 0xFC#8, 0xDB#8, 0x2D#8, 0xCE#8, 0x28#8, 0xD9#8, 0x59#8, 0xF2#8, 0x81#8, 0x5B#8, 0x16#8, 0xF8#8, 0x17#8,
        0x98#8]) := by decide +kernel

/-- S2. -/
theorem test_pser_of_negated_g :
    after (step (ready 0x60000000 [(0, el gx 0), (1, el negGy 0)])) (fun t => (t.outlen, t.out.toList)) =
      some (33#6,
        [0x03#8, 0x79#8, 0xBE#8, 0x66#8, 0x7E#8, 0xF9#8, 0xDC#8, 0xBB#8, 0xAC#8, 0x55#8, 0xA0#8, 0x62#8, 0x95#8, 0xCE#8, 0x87#8, 0x0B#8,
        0x07#8, 0x02#8, 0x9B#8, 0xFC#8, 0xDB#8, 0x2D#8, 0xCE#8, 0x28#8, 0xD9#8, 0x59#8, 0xF2#8, 0x81#8, 0x5B#8, 0x16#8, 0xF8#8, 0x17#8,
        0x98#8]) := by decide +kernel

/-! ### address_derivation_pipeline (95_test_vectors.md sections 5.2, 5.3) -/

/-- Hash units that know the digests of 95_test_vectors.md section 5.3 for (Gx, P − Gy) on TESTNET and no other; the inner digest of the
body, which the spec does not print, is all 0xAA. -/
def stubSha (b : ByteString) : Vector Byte 32 :=
  let inner := List.replicate 32 0xAA#8
  let digest :=
    if b = secBytes (el gx 0) (el negGy 0) then be 32 0xFBD27DBB9E7F471BF3DE3704A35E884E37D35C676DC2CC8C3CC574C3962376D2
    else if b = be 21 0x6FADDE4C73C7B9CEE17DA6C7B3E2B2EEA1A0DCBE67 then inner
    else if b = inner then be 32 0x0A342A51BCC16B4A00C09E7605836661E0F146872F3C8CCECD0A518CB91F4322
    else []
  Vector.ofFn fun i => digest.getD i.val 0

def stubRipemd (b : ByteString) : Vector Byte 20 :=
  let digest :=
    if b = be 32 0xFBD27DBB9E7F471BF3DE3704A35E884E37D35C676DC2CC8C3CC574C3962376D2
    then be 20 0xADDE4C73C7B9CEE17DA6C7B3E2B2EEA1A0DCBE67
    else []
  Vector.ofFn fun i => digest.getD i.val 0

/-- Section 5.3, (Gx, P − Gy) on TESTNET. -/
theorem test_addr_payload_wiring :
    addressPayload stubSha stubRipemd 0x6F (secBytes (el gx 0) (el negGy 0)) =
      [0x6F#8, 0xAD#8, 0xDE#8, 0x4C#8, 0x73#8, 0xC7#8, 0xB9#8, 0xCE#8, 0xE1#8, 0x7D#8, 0xA6#8, 0xC7#8, 0xB3#8, 0xE2#8, 0xB2#8, 0xEE#8,
      0xA1#8, 0xA0#8, 0xDC#8, 0xBE#8, 0x67#8, 0x0A#8, 0x34#8, 0x2A#8, 0x51#8] := by decide +kernel

/-- 43_address_derivation.md R170, by 41_point_doubler.md R140. -/
theorem test_addr_mismatched_pair :
    after (step (ready 0x8000006F [(0, el gx 0), (1, el gy 1)])) (failedWith 3 0x8000006F) = some true := by decide +kernel

/-! ### Illegal words as executed (95_test_vectors.md Program 6) -/

/-- Program 6. -/
theorem test_illegal_words_fail_with_code_1 :
    ([0x00000000, 0x44400000, 0x80000001, 0x10000100] : List Word).all
      (fun w => after (step (ready w [(0, el 1 0), (1, el 1 0)])) (failedWith 1 w) == some true) = true := by decide +kernel

/-! ### The host window (95_test_vectors.md section 7) -/

/-- A host access as the next turn. -/
def withTurn (s : State) (t : Turn) : State := { s with turns := [t] }

/-- H2, H4, first and last words. -/
theorem test_window_constants :
    State.reset.hostRead 0x0A0 = 0xFFFFFFFF ∧ State.reset.hostRead 0x0BC = 0xFFFFFC2F ∧ State.reset.hostRead 0x0E0 = 0x79BE667E ∧
    State.reset.hostRead 0x0FC = 0x16F81798 ∧ State.reset.hostRead 0x0DC = 7 ∧ State.reset.hostRead 0x100 = 0x483ADA77 := by decide +kernel

/-- H6. -/
theorem test_window_unmapped :
    ([0x000, 0x008, 0x014, 0x084, 0x120, 0xFFC] : List Offset).all (fun o => State.reset.hostRead o == 0) = true := by decide +kernel

/-- H8. -/
theorem test_window_din :
    ((State.reset.hostWrite 0x020 0x11223344).hostWrite 0x03C 0xAABBCCDD).din =
      0x11223344000000000000000000000000000000000000000000000000AABBCCDD#256 := by decide +kernel

/-- H9. -/
theorem test_window_accepts :
    after (step (withTurn State.reset (.host (.write 0x000 0x04000000)))) State.statusWord = some 0x00000001 := by decide +kernel

/-- H10. -/
theorem test_window_drops :
    after (step (withTurn (ready 0x04000000 []) (.host (.write 0x000 0x08400002)))) State.statusWord = some 0x00000005 := by decide +kernel

/-- H11, H12. -/
theorem test_window_snapshot :
    after (step { ready 0x04000000 [] with din := 9, drop := true }) (fun t => (reg 0 t, t.statusWord)) =
      some (some (0, 0), 0x00000004) := by decide +kernel

/-- H13. -/
theorem test_window_clear :
    after (step (withTurn { State.reset with drop := true } (.host (.write 0x008 1)))) State.statusWord = some 0 := by decide +kernel

/-- H14. -/
theorem test_window_soft_reset :
    after (step (withTurn { ready 0x10400000 [(0, el 1 0)] with drop := true } (.host (.write 0x008 3)))) id = some State.reset := by decide +kernel

/-- H15. -/
theorem test_window_misaligned_is_refused :
    step (withTurn State.reset (.host (.read 0x002))) = .refused .accessOutsideContract ∧
    step (withTurn State.reset (.host (.otherWidth .w8 0x000))) = .refused .accessOutsideContract := ⟨rfl, rfl⟩

/-- S1, the OUT words after it. -/
theorem test_window_out_words :
    ([(0x060, 0x0279BE66), (0x064, 0x7EF9DCBB), (0x080, 0x98000000)] : List (Offset × Word)).all
      (fun x => (State.reset.writeOut (secBytes (el gx 0) (el gy 0))).hostRead x.1 == x.2) = true := by decide +kernel

/-- Program 4, step 4, and Program 2, step 6. -/
theorem test_status_fields :
    ({ State.reset with err := true, errcause := 4, drop := true } : State).statusWord = 0x00000406 ∧
    ({ State.reset with outlen := 33, onc := true } : State).statusWord = 0x00210010 := by decide +kernel

/-! ### The step and the placement of a word -/

/-- F11. -/
theorem test_withFetchWord_runs :
    after (step (State.reset.withFetchWord 32 0x08800002)) (reg 2) = some (some (gy, 0)) := by decide +kernel

/-- An idle ENGINE has no step (60_exceptions.md R222). -/
theorem test_reset_is_idle : step State.reset = .fault .engineIdle := rfl

/-! ### The host's side -/

/-- 42_point_serializer.md R164. -/
theorem test_hexText :
    hexText .upper [0x02#8, 0x79#8, 0xBE#8] = ['0', '2', '7', '9', 'B', 'E'] ∧ hexText .lower [0xBE#8] = ['b', 'e'] := by decide +kernel

/-- Section 5.3, G on MAINNET. -/
theorem test_base58 :
    standardBase58 (be 25 0x00751E76E8199196D454941C45D1B3A323F1433BD6510D1634) =
      "1BgGZ9tcN4rm9KBzDn7KprQz87SZ26SAMH".toList := by decide +kernel

/-- Section 5.3, the corner cases. -/
theorem test_base58_corner_cases :
    standardBase58 (List.replicate 25 0) = List.replicate 25 '1' ∧
    standardBase58 (0 :: List.replicate 24 0xFF) = "1QLbz7JHiBTspS962RLKV8GndWFwiEaqKL".toList := by decide +kernel

/-- 30_encoding.md R88. -/
theorem test_asmText :
    asmText (.fld 2 1) = "FLD r2, tag=1" ∧ asmText (.fldc 0 .gx) = "FLDC r0, GX" ∧ asmText (.fadd 3 1 2) = "FADD r3, r1, r2" ∧
    asmText (.pdbl 2 0) = "PDBL r2, r0" ∧ asmText (.addr 0 .mainnet) = "ADDR r0, MAINNET" := by decide +kernel

/-! ### Witnesses: for each statement with hypotheses, concrete states and operands that meet them, clause by clause -/

open Sys2Proof.Terms

/-- A view of a next state shows that there is one. -/
theorem after_some {α : Type} {o : StepOutcome} {view : State → α} {v : α} (h : after o view = some v) :
    ∃ t, o = .next t ∧ view t = v := by
  cases o with
  | next t => exact ⟨t, rfl, by simpa [after] using h⟩
  | fault _ => simp [after] at h
  | refused _ => simp [after] at h

/-- One word of the row and one of its opcode that is not. -/
def rowClauses (op : BitVec 6) (matchBits mask good bad : Word) : Bool :=
  good.extractLsb' 26 6 == op && (good &&& mask) == matchBits && bad.extractLsb' 26 6 == op && (bad &&& mask) != matchBits

/-- The ENGINE is next by its turn, or by no turn being listed, and a word is pending: the hypotheses of `ExecutesAs` and
`IllegalWhenExecuted`. -/
theorem witness_engine_next :
    EngineNext (withTurn (ready 0x08000003 []) .engine) [] ∧ EngineNext (ready 0x08000003 []) [] ∧
    (ready 0x08000003 []).pend = some ⟨0x08000003, 0⟩ ∧ (withTurn (ready 0x08000003 []) .engine).pend = some ⟨0x08000003, 0⟩ :=
  ⟨.inl rfl, .inr ⟨rfl, rfl⟩, rfl, rfl⟩

theorem witness_DecodeOfEncodeIsTheCommand :
    ([.fld 15 3, .fldc 15 .one, .fst 15, .fadd 15 15 15, .fsub 0 15 15, .fmul 15 0 15, .fdiv 15 15 0, .finv 15 15, .feq 15 15, .ponc 14,
      .pdbl 14 14, .pser 14, .addr 14 .testnet] : List Instr).all Instr.wf = true := by decide

theorem witness_EncodeOfDecodeIsTheWord : decode 0x13FFC000#32 = .ok (.fadd 15 15 15) := by decide

theorem witness_WordIsACommandIffARowMatches : EncodesACommand 0x8000006F#32 ∧ ¬ EncodesACommand 0x80000070#32 := by
  unfold EncodesACommand
  decide

theorem witness_IllegalWordsRaiseIllegalCommand :
    (0x28000000#32).extractLsb' 26 6 ∉ opcodesOfR84 ∧ (0xFFFFFFFF#32).extractLsb' 26 6 ∉ opcodesOfR84 ∧
    ¬ EncodesACommand 0x10000100#32 ∧ ¬ EncodesACommand 0x40040000#32 := by
  unfold EncodesACommand
  decide

theorem witness_StepRunsTheDecodedCommand :
    EngineNext (ready 0x08800001 []) [] ∧ (ready 0x08800001 []).pend = some ⟨0x08800001, 0⟩ ∧
    decode 0x08800001#32 = .ok (.fldc 2 .gx) := ⟨.inr ⟨rfl, rfl⟩, rfl, by decide⟩

theorem witness_IdleEngineHasNoStep : State.reset.pend = none ∧ State.reset.turns = [] := ⟨rfl, rfl⟩

theorem witness_IdleEngineTurnKeepsEveryState :
    (withTurn State.reset .engine).pend = none ∧ (withTurn State.reset .engine).turns = .engine :: [] := ⟨rfl, rfl⟩

/-- A legal word and an illegal one. -/
theorem witness_EngineStepCompletesThePendingCommand :
    EngineNext (ready 0x08800001 []) [] ∧ (ready 0x08800001 []).pend = some ⟨0x08800001, 0⟩ ∧
    EngineNext (withTurn (ready 0 []) .engine) [] ∧ (withTurn (ready 0 []) .engine).pend = some ⟨0, 0⟩ :=
  ⟨.inr ⟨rfl, rfl⟩, rfl, .inl rfl, rfl⟩

/-- The state in which a CMD write and then the ENGINE's turn come. -/
def offering (w : Word) : State := { State.reset with turns := [.host (.write 0x000 w), .engine] }

theorem witness_CmdWriteThenEngineTurnRunsTheCommand :
    Instr.wf (.pdbl 2 0) = true ∧ (offering (encode (.pdbl 2 0))).pend = none ∧ (offering (encode (.pdbl 2 0))).err = false ∧
    (offering (encode (.pdbl 2 0))).turns = .host (.write 0x000 (encode (.pdbl 2 0))) :: .engine :: [] := ⟨by decide, rfl, rfl, rfl⟩

/-- Two lists of turns. In the first a command is accepted, a DIN write and a read follow, and the command is pending at the ENGINE's last
turn; in the second a reset empties PEND just before it, and the last turn passes (log 3). -/
theorem witness_EngineTurnEndsEveryWait :
    (({ State.reset with turns := [.host (.write 0x000 0x08800001), .host (.write 0x03C 9), .host (.read 0x004), .engine] } : State).turns =
      [.host (.write 0x000 0x08800001), .host (.write 0x03C 9), .host (.read 0x004)] ++ .engine :: [] ∧
    ([.host (.write 0x000 0x08800001), .host (.write 0x03C 9), .host (.read 0x004)] : List Turn).all legalTurn = true ∧
    ∃ t, Host.Core.run Sys2Proof.core 3
        { State.reset with turns := [.host (.write 0x000 0x08800001), .host (.write 0x03C 9), .host (.read 0x004), .engine] } = .next t ∧
      (t.pend, t.turns) = (some ⟨0x08800001, 0⟩, [.engine])) ∧
    ({ State.reset with turns := [.host (.write 0x000 0), .host (.read 0xFFC), .resetInput, .engine] } : State).turns =
      [.host (.write 0x000 0), .host (.read 0xFFC), .resetInput] ++ .engine :: [] ∧
    ([.host (.write 0x000 0), .host (.read 0xFFC), .resetInput] : List Turn).all legalTurn = true :=
  ⟨⟨rfl, by decide, after_some (view := fun t => (t.pend, t.turns)) (by decide +kernel)⟩, rfl, by decide⟩

/-! The operand cases that the statements of the field commands share. -/

/-- Both sources valid and of one tag, with a second operand that is not 0. -/
abbrev TwoOk : Prop := ∃ (s : State) (p : Pending) (ra rb : Reg) (a b : Elem),
  s.pend = some p ∧ s.fe[ra.val] = some a ∧ s.fe[rb.val] = some b ∧ a.tag = b.tag ∧ b.value.val ≠ 0

/-- The first, or only the second, source INVALID. -/
abbrev TwoInvalid : Prop := ∃ (s : State) (p : Pending) (ra rb : Reg),
  s.pend = some p ∧ s.fe[ra.val] = none ∧ s.fe[rb.val] ≠ none

abbrev TwoMismatch : Prop := ∃ (s : State) (p : Pending) (ra rb : Reg) (a b : Elem),
  s.pend = some p ∧ s.fe[ra.val] = some a ∧ s.fe[rb.val] = some b ∧ a.tag ≠ b.tag

abbrev TwoZero : Prop := ∃ (s : State) (p : Pending) (ra rb : Reg) (a b : Elem),
  s.pend = some p ∧ s.fe[ra.val] = some a ∧ s.fe[rb.val] = some b ∧ a.tag = b.tag ∧ b.value.val = 0

theorem two_ok : TwoOk :=
  ⟨ready 0 [(0, el 5 3), (15, el (Config.P - 1) 3)], ⟨0, 0⟩, 0, 15, el 5 3, el (Config.P - 1) 3, by decide +kernel⟩

theorem two_invalid : TwoInvalid := ⟨ready 0 [(15, el 1 0)], ⟨0, 0⟩, 0, 15, by decide +kernel⟩

theorem two_mismatch : TwoMismatch :=
  ⟨ready 0 [(0, el 5 0), (15, el 5 3)], ⟨0, 0⟩, 0, 15, el 5 0, el 5 3, by decide +kernel⟩

theorem two_zero : TwoZero := ⟨ready 0 [(0, el 5 1), (15, el 0 1)], ⟨0, 0⟩, 0, 15, el 5 1, el 0 1, by decide +kernel⟩

theorem witness_FldLoadsTheSnapshotModP :
    rowClauses 0x01 0x04000000 0xFC3FCFFF 0x04403000 0x04400001 = true ∧ (ready 0x04403000 []).pend = some ⟨0x04403000, 0⟩ :=
  ⟨by decide, rfl⟩

theorem witness_FldcLoadsTheConstant :
    rowClauses 0x02 0x08000000 0xFC3FFFFC 0x08800003 0x08800004 = true ∧ (ready 0x08800003 []).pend = some ⟨0x08800003, 0⟩ :=
  ⟨by decide, rfl⟩

theorem witness_FstCopiesTheElementOut :
    rowClauses 0x03 0x0C000000 0xFFC3FFFF 0x0C3C0000 0x0C3C3000 = true ∧ TwoOk ∧ TwoInvalid :=
  ⟨by decide, two_ok, two_invalid⟩

theorem witness_FaddSumsModP :
    rowClauses 0x04 0x10000000 0xFC003FFF 0x13FFC000 0x10000100 = true ∧ TwoOk ∧ TwoInvalid ∧ TwoMismatch :=
  ⟨by decide, two_ok, two_invalid, two_mismatch⟩

theorem witness_FsubDifferencesModP :
    rowClauses 0x05 0x14000000 0xFC003FFF 0x17FFC000 0x14000001 = true ∧ TwoOk ∧ TwoInvalid ∧ TwoMismatch :=
  ⟨by decide, two_ok, two_invalid, two_mismatch⟩

theorem witness_FmulMultipliesModP :
    rowClauses 0x06 0x18000000 0xFC003FFF 0x18444000 0x18001000 = true ∧ TwoOk ∧ TwoInvalid ∧ TwoMismatch :=
  ⟨by decide, two_ok, two_invalid, two_mismatch⟩

theorem witness_FdivMultipliesByThePower :
    rowClauses 0x07 0x1C000000 0xFC003FFF 0x1CC48000 0x1CC480FF = true ∧ TwoOk ∧ TwoInvalid ∧ TwoMismatch ∧ TwoZero :=
  ⟨by decide, two_ok, two_invalid, two_mismatch, two_zero⟩

theorem witness_FinvRaisesToThePower :
    rowClauses 0x08 0x20000000 0xFC3C3FFF 0x20C08000 0x20C48000 = true ∧ TwoOk ∧ TwoInvalid ∧ TwoZero :=
  ⟨by decide, two_ok, two_invalid, two_zero⟩

theorem witness_FeqComparesValues :
    rowClauses 0x09 0x24000000 0xFFC03FFF 0x24048000 0x24400000 = true ∧ TwoOk ∧ TwoInvalid ∧ TwoMismatch :=
  ⟨by decide, two_ok, two_invalid, two_mismatch⟩

/-! The operand cases of a point pair, at the last pair r14, r15. -/

/-- A pair of tag 0 on the curve, with Y not 0. -/
abbrev PairOk : Prop := ∃ (s : State) (p : Pending) (rd ra : Reg) (x y : Elem),
  s.pend = some p ∧ rd.val % 2 = 0 ∧ ra.val % 2 = 0 ∧ s.fe[ra.val] = some x ∧ s.fe[(ra + 1).val] = some y ∧ x.tag = 0 ∧ y.tag = 0 ∧
    y.value.val ≠ 0 ∧ y.value.val * y.value.val % Config.P = (x.value.val * x.value.val * x.value.val + 7) % Config.P

/-- X valid and Y INVALID. -/
abbrev PairInvalid : Prop := ∃ (s : State) (p : Pending) (ra : Reg) (x : Elem),
  s.pend = some p ∧ ra.val % 2 = 0 ∧ s.fe[ra.val] = some x ∧ s.fe[(ra + 1).val] = none

abbrev PairMismatch : Prop := ∃ (s : State) (p : Pending) (ra : Reg) (x y : Elem),
  s.pend = some p ∧ ra.val % 2 = 0 ∧ s.fe[ra.val] = some x ∧ s.fe[(ra + 1).val] = some y ∧ x.tag ≠ y.tag

/-- A pair of one tag that is not 0. -/
abbrev PairOtherTag : Prop := ∃ (s : State) (p : Pending) (ra : Reg) (x y : Elem),
  s.pend = some p ∧ ra.val % 2 = 0 ∧ s.fe[ra.val] = some x ∧ s.fe[(ra + 1).val] = some y ∧ x.tag = y.tag ∧ x.tag ≠ 0

/-- A pair of one tag with Y = 0, off the curve. -/
abbrev PairZero : Prop := ∃ (s : State) (p : Pending) (ra : Reg) (x y : Elem),
  s.pend = some p ∧ ra.val % 2 = 0 ∧ s.fe[ra.val] = some x ∧ s.fe[(ra + 1).val] = some y ∧ x.tag = y.tag ∧ y.value.val = 0

theorem pair_ok : PairOk :=
  ⟨ready 0 [(14, el gx 0), (15, el gy 0)], ⟨0, 0⟩, 14, 14, el gx 0, el gy 0, by decide +kernel⟩

theorem pair_invalid : PairInvalid := ⟨ready 0 [(14, el gx 0)], ⟨0, 0⟩, 14, el gx 0, by decide +kernel⟩

theorem pair_mismatch : PairMismatch :=
  ⟨ready 0 [(14, el gx 0), (15, el gy 1)], ⟨0, 0⟩, 14, el gx 0, el gy 1, by decide +kernel⟩

theorem pair_other_tag : PairOtherTag :=
  ⟨ready 0 [(14, el gx 3), (15, el gy 3)], ⟨0, 0⟩, 14, el gx 3, el gy 3, by decide +kernel⟩

theorem pair_zero : PairZero := ⟨ready 0 [(14, el gx 0), (15, el 0 0)], ⟨0, 0⟩, 14, el gx 0, el 0 0, by decide +kernel⟩

theorem witness_PoncDecidesTheCurveEquation :
    rowClauses 0x10 0x40000000 0xFFC7FFFF 0x40380000 0x40040000 = true ∧ PairOk ∧ PairInvalid ∧ PairMismatch ∧ PairOtherTag :=
  ⟨by decide, pair_ok, pair_invalid, pair_mismatch, pair_other_tag⟩

theorem witness_PdblDoublesThePoint :
    rowClauses 0x11 0x44000000 0xFC47FFFF 0x47880000 0x44400000 = true ∧ PairOk ∧ PairInvalid ∧ PairMismatch ∧ PairZero :=
  ⟨by decide, pair_ok, pair_invalid, pair_mismatch, pair_zero⟩

theorem witness_DoublingStaysOnTheCurve : PairOk := pair_ok

theorem witness_NoCurvePointHasYZero :
    (∃ x y : Residue, CurveEquation x.val y.val) ∧
    ∃ s : State, s.err = false ∧ s.pend = some ⟨0x44800000, 0⟩ ∧ s.fe[(0 : Reg).val] = some (el gx 0) ∧
      s.fe[(0 + 1 : Reg).val] = some (el 0 0) ∧ exec (.pdbl 2 0) s = .next (latched s 4 0x44800000) := by
  refine ⟨⟨residue gx, residue gy, by unfold CurveEquation; decide +kernel⟩,
    ready 0x44800000 [(0, el gx 0), (1, el 0 0)], rfl, rfl, rfl, rfl, ?_⟩
  have hpt : pt (ready 0x44800000 [(0, el gx 0), (1, el 0 0)]) 0 = .ok (el gx 0, el 0 0) := pt_ok (by decide) rfl rfl rfl
  exact execPdbl_no_double (p := ⟨0x44800000, 0⟩) rfl (by decide) hpt (doublePoint_zero rfl (by decide +kernel))

theorem witness_PserWritesTheSecBytes :
    rowClauses 0x18 0x60000000 0xFFC7FFFF 0x60380000 0x60040000 = true ∧ PairOk ∧ PairInvalid ∧ PairMismatch :=
  ⟨by decide, pair_ok, pair_invalid, pair_mismatch⟩

theorem witness_NegatedPointGetsTheOtherPrefix :
    (el gx 0).tag = (el gy 0).tag ∧ (el gx 0).tag = (el negGy 0).tag ∧ (el gy 0).value.val ≠ 0 ∧
    (el negGy 0).value.val = Config.P - (el gy 0).value.val ∧
    (ready 0 [(14, el gx 0), (15, el gy 0)]).fe[14] = some (el gx 0) ∧
    (ready 0 [(14, el gx 0), (15, el gy 0)]).fe[15] = some (el gy 0) ∧
    (ready 0 [(14, el gx 0), (15, el negGy 0)]).fe[14] = some (el gx 0) ∧
    (ready 0 [(14, el gx 0), (15, el negGy 0)]).fe[15] = some (el negGy 0) := by decide +kernel

/-- The row's clauses, with the three cases of the network byte. -/
theorem witness_AddrWritesThePayload :
    rowClauses 0x20 0x80000000 0xFFC7FF00 0x80380000 0x80040000 = true ∧
    rowClauses 0x20 0x80000000 0xFFC7FF00 0x8000006F 0x80000100 = true ∧
    rowClauses 0x20 0x80000000 0xFFC7FF00 0x80000070 0x80400000 = true ∧ PairOk ∧ PairInvalid ∧ PairMismatch :=
  ⟨by decide, by decide, by decide, pair_ok, pair_invalid, pair_mismatch⟩

/-- a, b and one of one tag, at registers that differ from the destination. -/
theorem witness_FieldLawsHoldOfTheCommands :
    ∃ (s : State) (p : Pending) (a b one : Elem), s.pend = some p ∧ s.fe[0] = some a ∧ s.fe[1] = some b ∧ s.fe[2] = some one ∧
      a.value.val ≠ 0 ∧ b.value.val ≠ 0 ∧ one.value.val = 1 ∧ a.tag = b.tag ∧ one.tag = a.tag ∧ (15 : Reg) ≠ 0 ∧ (15 : Reg) ≠ 1 :=
  ⟨ready 0 [(0, el 5 3), (1, el gx 3), (2, el 1 3)], ⟨0, 0⟩, el 5 3, el gx 3, el 1 3, by decide +kernel⟩

/-- A completing command and a failing one. -/
theorem witness_CommandsChangeOnlyTheirDestinations :
    (∃ t, exec (.fadd 3 1 2) (ready 0x10C48000 [(1, el 1 0), (2, el 2 0)]) = .next t ∧ t.err = false) ∧
    ∃ t, exec (.fadd 3 1 2) (ready 0x10C48000 [(1, el 1 0), (2, el 2 1)]) = .next t ∧ t.err = true :=
  ⟨after_some (by decide +kernel), after_some (by decide +kernel)⟩

/-- Two states that agree on r1 and r2 and not on r3, EQ or DIN. -/
theorem witness_ResultsDependOnlyOnTheSources :
    ∃ s₁ s₂ : State, s₁.pend = some ⟨0x10C48000, 0⟩ ∧ s₂.pend = some ⟨0x10C48000, 0⟩ ∧ s₁ ≠ s₂ ∧
      (∀ r ∈ sources (.fadd 3 1 2), s₁.fe[r.val] = s₂.fe[r.val]) ∧ Instr.wf (.fadd 3 1 2) = true ∧
      ∃ t₁, exec (.fadd 3 1 2) s₁ = .next t₁ ∧ t₁.err = false :=
  ⟨ready 0x10C48000 [(1, el 1 0), (2, el 2 0)],
    { ready 0x10C48000 [(1, el 1 0), (2, el 2 0), (3, el 9 1)] with eq := true, din := 7 }, rfl, rfl, by decide +kernel,
    by decide +kernel, by decide, after_some (by decide +kernel)⟩

/-- One state for each clause: an illegal word, each later cause, no cause. -/
theorem witness_FirstCauseInThePriorityOrder :
    (command? 0).isNone = true ∧ decode 0x1CC48000#32 = .ok (.fdiv 3 1 2) ∧ EngineNext (ready 0x1CC48000 []) [] ∧
    firstCause (ready 0x1CC48000 [(2, el 0 1)]) (.fdiv 3 1 2) = 2 ∧
    firstCause (ready 0x1CC48000 [(1, el 1 0), (2, el 0 1)]) (.fdiv 3 1 2) = 3 ∧
    firstCause (ready 0x1CC48000 [(1, el 1 0), (2, el 0 0)]) (.fdiv 3 1 2) = 4 ∧
    firstCause (ready 0x1CC48000 [(1, el 1 0), (2, el 1 0)]) (.fdiv 3 1 2) = 0 :=
  ⟨by decide, by decide, .inr ⟨rfl, rfl⟩, by decide +kernel, by decide +kernel, by decide +kernel, by decide +kernel⟩

theorem witness_FailedCommandChangesNothingElse :
    EngineNext (ready 0x0C0C0000 []) [] ∧ (ready 0x0C0C0000 []).pend = some ⟨0x0C0C0000, 0⟩ ∧ (ready 0x0C0C0000 []).err = false ∧
    ∃ t, step (ready 0x0C0C0000 []) = .next t ∧ t.err = true :=
  ⟨.inr ⟨rfl, rfl⟩, rfl, rfl, after_some (by decide +kernel)⟩

theorem witness_FlagsChangeOnlyByFeqAndPonc :
    firstTurnNot resets (ready 0x24048000 [(1, el 5 0), (2, el 5 0)]) ∧
    (∃ t, step (ready 0x24048000 [(1, el 5 0), (2, el 5 0)]) = .next t ∧ t.eq = true) ∧
    ∃ t, step (ready 0x40000000 [(0, el gx 0), (1, el gy 0)]) = .next t ∧ t.onc = true :=
  ⟨by unfold firstTurnNot; decide +kernel, after_some (by decide +kernel), after_some (by decide +kernel)⟩

/-- A state with DivisionByZero latched, in which a host access comes next. -/
def latchedThen (t : Turn) : State := withTurn (latched State.reset 4 0x1C804000) t

theorem witness_LatchedErrorStopsTheSequence :
    (latchedThen (.host (.write 0x000 0x10800000))).err = true ∧ (latchedThen (.host (.write 0x000 0x10800000))).pend = none ∧
    firstTurnNot resets (latchedThen (.host (.write 0x000 0x10800000))) ∧
    firstTurnNot clears (latchedThen (.host (.write 0x000 0x10800000))) ∧
    ∃ t, step (latchedThen (.host (.write 0x000 0x10800000))) = .next t ∧ t.drop = true :=
  ⟨rfl, rfl, by unfold firstTurnNot; decide +kernel, by unfold firstTurnNot; decide +kernel, after_some (by decide +kernel)⟩

/-- The first and the last word of a 256-bit register stand at 0x040 and 0x05C. -/
theorem witness_DataRegistersReadAtTheirOffsets :
    BitVec.ofNat 12 (0x040 + 4 * 0) = 0x040#12 ∧ BitVec.ofNat 12 (0x040 + 4 * 7) = 0x05C#12 ∧ (0 ≤ 7 ∧ 7 ≤ 7) := by decide

theorem witness_ConstantWindowsNeverChange :
    (0x0A0#12).toNat ≥ 0x0A0 ∧ (0x11C#12).toNat ≤ 0x11C ∧ ∃ t, step (ready 0x08800001 []) = .next t ∧ t.pend = none :=
  ⟨by decide, by decide, after_some (by decide +kernel)⟩

/-- The ends of every range of the two clauses. -/
theorem witness_UnmappedAndWrongDirectionAccesses :
    ([0x014, 0x01C, 0x084, 0x09C, 0x120, 0xFFC] : List Offset).all (fun o => o.toNat % 4 == 0 &&
      ((0x014 ≤ o.toNat && o.toNat ≤ 0x01C) || (0x084 ≤ o.toNat && o.toNat ≤ 0x09C) || 0x120 ≤ o.toNat)) = true ∧
    ([0x004, 0x00C, 0x010, 0x040, 0x080, 0x0A0, 0x11C] : List Offset).all (fun o => o.toNat % 4 == 0 &&
      (o == 0x004 || o == 0x00C || o == 0x010 || (0x040 ≤ o.toNat && o.toNat ≤ 0x080) ||
        (0x0A0 ≤ o.toNat && o.toNat ≤ 0x11C))) = true ∧
    (withTurn State.reset (.host (.write 0x11C 5))).turns = .host (.write 0x11C 5) :: [] := by decide +kernel

theorem witness_DinWordsWriteAndReadBack :
    (withTurn State.reset (.host (.write 0x03C 9))).turns = .host (.write (BitVec.ofNat 12 (0x020 + 4 * 7)) 9) :: [] ∧
    (State.reset.hostWrite 0x03C 0xAABBCCDD).hostRead 0x03C = 0xAABBCCDD ∧
    (State.reset.hostWrite 0x03C 0xAABBCCDD).hostRead 0x020 = 0 ∧ (0 ≤ 7 ∧ 7 ≤ 7) := by decide +kernel

/-- Byte 32 stands at the top of word 8, and the bytes above it read 0. -/
theorem witness_OutWordsPackBigEndian :
    ({ State.reset with out := Vector.replicate 33 0xFF } : State).hostRead (BitVec.ofNat 12 (0x060 + 4 * 8)) = 0xFF000000 ∧
    (0 ≤ 8 ∧ 8 ≤ 8 ∧ 0 ≤ 3 ∧ 3 ≤ 3) := by decide +kernel

/-- An idle core, a busy one, one with an error; a word that is illegal. -/
theorem witness_CmdWriteIsAcceptedOrDropped :
    ((offering 0).pend = none ∧ (offering 0).err = false ∧ (offering 0).turns = .host (.write 0x000 0) :: [.engine]) ∧
    (withTurn (ready 0 []) (.host (.write 0x000 0))).pend ≠ none ∧ (latchedThen (.host (.write 0x000 0))).err = true ∧
    (command? 0).isNone = true := ⟨⟨rfl, rfl, rfl⟩, by decide +kernel, rfl, by decide⟩

theorem witness_DinWriteNeverAffectsThePendingCommand :
    (withTurn (ready 0x04000000 []) (.host (.write 0x03C 9))).turns = .host (.write (BitVec.ofNat 12 (0x020 + 4 * 7)) 9) :: [] ∧
    (withTurn (ready 0x04000000 []) (.host (.write 0x020 9))).turns = .host (.write (BitVec.ofNat 12 (0x020 + 4 * 0)) 9) :: [] ∧
    (withTurn (ready 0x04000000 []) (.host (.write 0x03C 9))).pend ≠ none := by decide +kernel

/-- Bit 0 alone, and every bit but bit 1; an idle core, and one with an illegal word pending. -/
theorem witness_ClrClearsTheErrorState :
    (latchedThen (.host (.write 0x008 1))).turns = .host (.write 0x008 1) :: [] ∧ (1#32).getLsbD 0 = true ∧ (1#32).getLsbD 1 = false ∧
    (0xFFFFFFFD#32).getLsbD 0 = true ∧ (0xFFFFFFFD#32).getLsbD 1 = false ∧ (latchedThen (.host (.write 0x008 1))).pend = none ∧
    (withTurn (ready 0 []) (.host (.write 0x008 1))).pend = some ⟨0, 0⟩ ∧ decode 0 = .error .reservedOpcode :=
  ⟨rfl, by decide, by decide, by decide, by decide, rfl, rfl, by decide⟩

theorem witness_OtherCtrlBitsAreIgnored :
    (latchedThen (.host (.write 0x008 0xFFFFFFFC))).turns = .host (.write 0x008 0xFFFFFFFC) :: [] ∧
    (0xFFFFFFFC#32).getLsbD 0 = false ∧ (0xFFFFFFFC#32).getLsbD 1 = false := ⟨rfl, by decide, by decide⟩

theorem witness_HostReadsHaveNoSideEffect :
    (withTurn State.reset (.host (.read 0xFFC))).turns = .host (.read 0xFFC) :: [] ∧ (0xFFC#12).toNat % 4 = 0 := ⟨rfl, by decide⟩

theorem witness_BusyReadsShowTheStateBefore :
    (0x000#12).toNat % 4 = 0 ∧ (0x000#12).toNat ≠ 0x004 ∧ (0xFFC#12).toNat % 4 = 0 ∧
    (ready 0 []).hostRead 0x004 = 1 ∧ ({ ready 0 [] with pend := none } : State).hostRead 0x004 = 0 := by decide +kernel

theorem witness_AccessOutsideTheContractIsRefused :
    inContract (.read 0x002) = false ∧ inContract (.write 0xFFF 0) = false ∧ inContract (.otherWidth .w64 0x000) = false ∧
    inContract (.read 0xFFC) = true ∧ inContract (.write 0x000 0) = true := by decide

theorem witness_WindowStandsAtBase : Config.base + 4096 ≤ Config.base + 4096 := le_rfl

theorem witness_ResetInputGivesTheResetTable : (latchedThen .resetInput).turns = .resetInput :: [] := rfl

theorem witness_SrstIsTheResetInput :
    (2#32).getLsbD 1 = true ∧ (3#32).getLsbD 1 = true ∧
    (withTurn (ready 0x10400000 [(0, el 1 0)]) (.host (.write 0x008 2))).turns = .host (.write 0x008 2) :: [] :=
  ⟨by decide, by decide, rfl⟩

/-- A safe state with a point serialised, in which an ADDR fails, and one in which an FADD completes. -/
theorem witness_StepKeepsTheSafeStates :
    ((ready 0x80000000 []).writeOut (secBytes (el gx 0) (el gy 0))).Inv ∧
    (∃ t, step ((ready 0x80000000 []).writeOut (secBytes (el gx 0) (el gy 0))) = .next t ∧ t.err = true) ∧
    (ready 0x10C48000 [(1, el 1 0), (2, el 2 0)]).Inv ∧
    ∃ t, step (ready 0x10C48000 [(1, el 1 0), (2, el 2 0)]) = .next t ∧ t.err = false :=
  ⟨by decide +kernel, after_some (by decide +kernel), by decide +kernel, after_some (by decide +kernel)⟩

/-- A latched DivisionByZero of an FDIV fits, and one of an FADD does not. -/
theorem witness_ErrinfoAlwaysFitsTheCause :
    ErrinfoFits (latchedThen (.host (.read 0x004))) ∧ ¬ ErrinfoFits (latched State.reset 4 0x10800000) ∧
    ∃ t, step (latchedThen (.host (.read 0x004))) = .next t ∧ t.err = true := by
  have h1 : decode 0x1C804000#32 = .ok (.fdiv 2 0 1) := by decide
  have h2 : decode 0x10800000#32 = .ok (.fadd 2 0 0) := by decide
  refine ⟨fun _ => ?_, fun h => ?_, after_some (by decide +kernel)⟩
  · change (match decode 0x1C804000#32 with
      | .error _ => (4 : BitVec 4) = 1
      | .ok i => (4 : BitVec 4) ∈ raisable i)
    rw [h1]
    decide
  · have h' : (match decode 0x10800000#32 with
      | .error _ => (4 : BitVec 4) = 1
      | .ok i => (4 : BitVec 4) ∈ raisable i) := h rfl
    rw [h2] at h'
    revert h'
    decide

theorem witness_OnlyTheHostChangesDin :
    firstTurnNot writesDin (withTurn State.reset (.host (.write 0x040 5))) ∧
    firstTurnNot resets (withTurn State.reset (.host (.write 0x040 5))) ∧
    ∃ t, step (withTurn State.reset (.host (.write 0x040 5))) = .next t ∧ t.din = 0 :=
  ⟨by unfold firstTurnNot; decide +kernel, by unfold firstTurnNot; decide +kernel, after_some (by decide +kernel)⟩

theorem witness_DropIsSticky :
    ({ ready 0x08800001 [] with drop := true } : State).drop = true ∧
    firstTurnNot clears { ready 0x08800001 [] with drop := true } ∧ firstTurnNot resets { ready 0x08800001 [] with drop := true } ∧
    ∃ t, step { ready 0x08800001 [] with drop := true } = .next t ∧ t.drop = true :=
  ⟨rfl, by unfold firstTurnNot; decide +kernel, by unfold firstTurnNot; decide +kernel, after_some (by decide +kernel)⟩

/-- A reachable state that is busy, and one with an error latched. -/
theorem witness_BusyAndErrNeverTogether :
    (∃ s, Reachable s ∧ s.pend.isSome = true) ∧ ∃ s, Reachable s ∧ s.err = true := by
  have h0 : Reachable (withTurn State.reset (.host (.write 0x000 0))) := .turn State.reset _ .reset
  obtain ⟨t, ht, hv⟩ : ∃ t, step (withTurn State.reset (.host (.write 0x000 0))) = .next t ∧ (t.pend.isSome, t.turns) = (true, []) :=
    after_some (view := fun t => (t.pend.isSome, t.turns)) (by decide +kernel)
  obtain ⟨u, hu, he⟩ : ∃ u, step (withTurn State.reset (.host (.write 0x000 0))) = .next u ∧ after (step u) State.err = some true :=
    after_some (view := fun u => after (step u) State.err) (by decide +kernel)
  have hr : Reachable t := .step _ _ h0 ht
  have hru : Reachable u := .step _ _ h0 hu
  obtain ⟨x, hx, hxe⟩ := after_some he
  exact ⟨⟨t, hr, congrArg Prod.fst hv⟩, x, .step _ _ hru hx, hxe⟩


end Sys2Proof.Tests
end

section
/-! SUPPORT. What the reset leaves and what the constant windows read (10_state.md R36, R37, R39), and the two statements settled from
it. -/

namespace Sys2Proof.Machine

/-! ### Reads of the host window, one equation per register -/

/-- CMD is write-only (20_memory.md R53). -/
@[simp] theorem hostRead_cmd (s : State) : s.hostRead 0x000 = 0 := by
  simp only [State.hostRead, windowReg_cmd]

/-- CTRL is write-only (20_memory.md R53). -/
@[simp] theorem hostRead_ctrl (s : State) : s.hostRead 0x008 = 0 := by
  simp only [State.hostRead, windowReg_ctrl]

theorem hostRead_of_constP {off : Offset} {k : Nat} (s : State) (h : windowReg off = .constP k) :
    s.hostRead off = wordOf (BitVec.ofNat 256 Config.P) k := by
  simp only [State.hostRead, h]

theorem hostRead_of_constB {off : Offset} {k : Nat} (s : State) (h : windowReg off = .constB k) :
    s.hostRead off = wordOf (BitVec.ofNat 256 Config.curveB) k := by
  simp only [State.hostRead, h]

theorem hostRead_of_constGx {off : Offset} {k : Nat} (s : State) (h : windowReg off = .constGx k) :
    s.hostRead off = wordOf (BitVec.ofNat 256 Config.Gx) k := by
  simp only [State.hostRead, h]

theorem hostRead_of_constGy {off : Offset} {k : Nat} (s : State) (h : windowReg off = .constGy k) :
    s.hostRead off = wordOf (BitVec.ofNat 256 Config.Gy) k := by
  simp only [State.hostRead, h]

theorem hostRead_of_unmapped {off : Offset} (s : State) (h : windowReg off = .unmapped) : s.hostRead off = 0 := by
  simp only [State.hostRead, h]

/-! ### The constant windows -/

/-- Word k of a constant below 2^256 (20_memory.md R54). -/
theorem wordOf_ofNat_toNat {v : Nat} (hv : v < 2 ^ 256) (k : Nat) :
    (wordOf (BitVec.ofNat 256 v) k).toNat = v / 2 ^ (224 - 32 * k) % 2 ^ 32 := by
  rw [wordOf_toNat, BitVec.toNat_ofNat, Nat.mod_eq_of_lt hv]

/-- From 0x0A0 to 0x11C stand the four constants; the offsets that no window covers are not aligned. -/
theorem windowReg_of_constRange {off : Offset} (hlo : 0x0A0 ≤ off.toNat) (hhi : off.toNat ≤ 0x11C) :
    (∃ k, windowReg off = .constP k) ∨ (∃ k, windowReg off = .constB k) ∨ (∃ k, windowReg off = .constGx k) ∨
      (∃ k, windowReg off = .constGy k) ∨ windowReg off = .unmapped := by
  have hfits := windowReg_fits off
  cases hreg : windowReg off with
  | constP k => exact .inl ⟨k, rfl⟩
  | constB k => exact .inr (.inl ⟨k, rfl⟩)
  | constGx k => exact .inr (.inr (.inl ⟨k, rfl⟩))
  | constGy k => exact .inr (.inr (.inr (.inl ⟨k, rfl⟩)))
  | unmapped => exact .inr (.inr (.inr (.inr rfl)))
  | _ =>
    rw [hreg] at hfits
    simp only [WindowRegFits] at hfits
    omega

/-- What the range of the constant windows reads depends on no state (10_state.md R37). -/
theorem hostRead_constRange_eq {off : Offset} (s t : State) (hlo : 0x0A0 ≤ off.toNat) (hhi : off.toNat ≤ 0x11C) :
    t.hostRead off = s.hostRead off := by
  rcases windowReg_of_constRange hlo hhi with ⟨k, h⟩ | ⟨k, h⟩ | ⟨k, h⟩ | ⟨k, h⟩ | h
  · rw [hostRead_of_constP t h, hostRead_of_constP s h]
  · rw [hostRead_of_constB t h, hostRead_of_constB s h]
  · rw [hostRead_of_constGx t h, hostRead_of_constGx s h]
  · rw [hostRead_of_constGy t h, hostRead_of_constGy s h]
  · rw [hostRead_of_unmapped t h, hostRead_of_unmapped s h]

/-- Settles O37: each constant is below 2^256, so its words are its quotients; and a read in this range ignores the state. -/
theorem constantWindowsNeverChange : Obligations.ConstantWindowsNeverChange := by
  unfold Obligations.ConstantWindowsNeverChange
  refine ⟨fun s k hk => ⟨?_, ?_, ?_, ?_⟩, fun s t off _ hlo hhi => hostRead_constRange_eq s t hlo hhi⟩
  · rw [hostRead_of_constP s (windowReg_constP hk), wordOf_ofNat_toNat P_lt, P_eq]
  · rw [hostRead_of_constB s (windowReg_constB hk), wordOf_ofNat_toNat (by decide), Config.curveB]
  · rw [hostRead_of_constGx s (windowReg_constGx hk), wordOf_ofNat_toNat (by decide), Config.Gx]
  · rw [hostRead_of_constGy s (windowReg_constGy hk), wordOf_ofNat_toNat (by decide), Config.Gy]

/-! ### Reset -/

/-- Every FE register is INVALID after reset (10_state.md R39). -/
theorem reset_fe_getElem (r : Reg) : State.reset.fe[r.val] = none := Vector.getElem_replicate r.isLt

/-- Every byte of OUT is 0 after reset (10_state.md R39). -/
theorem eq_zero_of_mem_reset_out {b : Byte} (h : b ∈ State.reset.out.toList) : b = 0x00#8 := by
  have hrep : State.reset.out.toList = List.replicate 33 0x00#8 := Vector.toList_replicate
  rw [hrep] at h
  exact List.eq_of_mem_replicate h

/-- The reset input is a step, to the reset state with the environment's fields kept (70_reset_and_hazards.md R240). -/
theorem step_resetInput {s : State} {rest : List Turn} (h : s.turns = .resetInput :: rest) :
    step s = .next ({ s with turns := rest } : State).resetCore := by
  rw [step_turn h, State.takeTurn]

/-- Settles O50: the step is `resetCore`, whose fields are those of the reset state. -/
theorem resetInputGivesTheResetTable : Obligations.ResetInputGivesTheResetTable := by
  unfold Obligations.ResetInputGivesTheResetTable
  intro s rest hturns
  exact ⟨_, step_resetInput hturns, reset_fe_getElem, rfl, rfl, rfl, rfl, rfl, rfl, rfl, rfl, rfl, rfl, rfl,
    fun _ => eq_zero_of_mem_reset_out, hostRead_cmd _, hostRead_ctrl _, fun _ => hostRead_constRange_eq s _⟩

end Sys2Proof.Machine
end

section
/-! SUPPORT. Host accesses as steps (20_memory.md R51 to R59), the independence of the ENGINE's step from DIN, and the statements of
20_memory.md settled from them. -/

namespace Sys2Proof.Machine

open Sys2Proof.Terms

variable {s t : State} {off : Offset} {w : Word} {rest : List Turn}

/-! ### One host access as a step -/

theorem step_host {a : HostAccess} (h : s.turns = .host a :: rest) : step s = ({ s with turns := rest } : State).hostStep a := by
  rw [step_turn h, State.takeTurn]

theorem step_hostWrite (h : s.turns = .host (.write off w) :: rest) (ha : off.toNat % 4 = 0) :
    step s = .next (({ s with turns := rest } : State).hostWrite off w) := by
  rw [step_host h, hostStep_write ha]

/-- Every aligned 32-bit access has a step (20_memory.md R51). -/
theorem hostStep_inContract (s : State) {a : HostAccess} (h : inContract a = true) : ∃ t, s.hostStep a = .next t := by
  cases a with
  | read off => exact ⟨_, hostStep_read (by simpa [inContract] using h)⟩
  | write off w => exact ⟨_, hostStep_write (by simpa [inContract] using h)⟩
  | otherWidth width off => simp [inContract] at h

/-- Another width, or a misaligned offset, has none (20_memory.md R51). -/
theorem hostStep_outsideContract (s : State) {a : HostAccess} (h : inContract a = false) :
    s.hostStep a = .refused .accessOutsideContract := by
  cases a with
  | read off => exact hostStep_read_misaligned (by simpa [inContract] using h)
  | write off w => exact hostStep_write_misaligned (by simpa [inContract] using h)
  | otherWidth width off => rfl

/-- Settles O48: the step is the access's own, which is refused or has a next state by its width and offset alone. -/
theorem accessOutsideTheContractIsRefused : Obligations.AccessOutsideTheContractIsRefused := by
  unfold Obligations.AccessOutsideTheContractIsRefused
  intro s a rest hturns
  rw [step_host hturns]
  exact ⟨hostStep_outsideContract _, hostStep_inContract _⟩

/-! ### Unlisted offsets and read-only registers (20_memory.md R53) -/

theorem windowReg_of_unlisted
    (h : (0x014 ≤ off.toNat ∧ off.toNat ≤ 0x01C) ∨ (0x084 ≤ off.toNat ∧ off.toNat ≤ 0x09C) ∨ 0x120 ≤ off.toNat) :
    windowReg off = .unmapped := by
  have hfits := windowReg_fits off
  cases hreg : windowReg off with
  | unmapped => rfl
  | _ =>
    rw [hreg] at hfits
    simp only [WindowRegFits] at hfits
    omega

/-- A write is ignored unless it is to CMD, CTRL or DIN. -/
theorem hostWrite_ignored (s : State) (w : Word) (hcmd : off.toNat ≠ 0x000) (hctrl : off.toNat ≠ 0x008)
    (hdin : off.toNat < 0x020 ∨ 0x03C < off.toNat) : s.hostWrite off w = s := by
  rcases hostWrite_cases s off w with ⟨h, -⟩ | ⟨h, -⟩ | ⟨d, hlo, hhi, -⟩ | h
  · exact absurd h hcmd
  · exact absurd h hctrl
  · omega
  · exact h

theorem step_write_ignored (h : s.turns = .host (.write off w) :: rest) (ha : off.toNat % 4 = 0) (hcmd : off.toNat ≠ 0x000)
    (hctrl : off.toNat ≠ 0x008) (hdin : off.toNat < 0x020 ∨ 0x03C < off.toNat) : step s = .next { s with turns := rest } := by
  rw [step_hostWrite h ha, hostWrite_ignored _ w hcmd hctrl hdin]

/-- Settles O38: no register stands at an unlisted offset, and only CMD, CTRL and DIN take a write. -/
theorem unmappedAndWrongDirectionAccesses : Obligations.UnmappedAndWrongDirectionAccesses := by
  unfold Obligations.UnmappedAndWrongDirectionAccesses
  refine ⟨fun s off w rest haligned hoff => ⟨?_, fun hturns => ?_⟩, fun s off w rest haligned hoff hturns => ?_,
    fun s => ⟨hostRead_cmd s, hostRead_ctrl s⟩⟩
  · exact hostRead_of_unmapped s (windowReg_of_unlisted hoff)
  · exact step_write_ignored hturns haligned (by omega) (by omega) (by omega)
  · exact step_write_ignored hturns haligned (by omega) (by omega) (by omega)

/-! ### OUT (20_memory.md R55) -/

theorem hostRead_out (s : State) {k : Nat} (hk : k ≤ 8) : s.hostRead (BitVec.ofNat 12 (0x060 + 4 * k)) = outWord s.out k := by
  simp only [State.hostRead, windowReg_out hk]

/-- Byte j of word k, from the top, is byte 4k + j of OUT. -/
theorem outWord_byte (out : Vector Byte 33) (k : Nat) {j : Nat} (hj : j ≤ 3) :
    (outWord out k).extractLsb' (24 - 8 * j) 8 = outByte out (4 * k + j) := by
  unfold outWord
  interval_cases j
  · iterate 3 rw [BitVec.extractLsb'_append_eq_of_le (by decide)]
    exact BitVec.extractLsb'_eq_self
  · iterate 2 rw [BitVec.extractLsb'_append_eq_of_le (by decide)]
    exact BitVec.extractLsb'_append_eq_right
  · rw [BitVec.extractLsb'_append_eq_of_le (by decide)]
    exact BitVec.extractLsb'_append_eq_right
  · exact BitVec.extractLsb'_append_eq_right

/-- Settles O41: word k is four bytes put together, and a byte of OUT beyond its list is 0. -/
theorem outWordsPackBigEndian : Obligations.OutWordsPackBigEndian := by
  unfold Obligations.OutWordsPackBigEndian
  intro s k j hk hj
  rw [hostRead_out s hk, outWord_byte s.out k hj]
  exact outByte_eq_getD s.out (4 * k + j)

/-! ### CMD (20_memory.md R58) -/

theorem hostWrite_cmd (s : State) (w : Word) : s.hostWrite 0x000 w = s.offerCommand w := by
  simp only [State.hostWrite, windowReg_cmd]

theorem step_cmdWrite (h : s.turns = .host (.write 0x000 w) :: rest) :
    step s = .next (({ s with turns := rest } : State).offerCommand w) := by
  rw [step_hostWrite h rfl, hostWrite_cmd]

/-- A word that the decoder rejects raises IllegalCommand when the ENGINE comes to it (60_exceptions.md R201). -/
theorem illegalWhenExecuted_of_decode_error {r : Illegal} (h : decode w = .error r) : IllegalWhenExecuted w := by
  intro s rest din hnext hpend
  rw [step_engine_next hnext hpend]
  exact engineStep_illegal (p := ⟨w, din⟩) hpend h

/-- Settles O42: the write offers its word, whatever it is; the decoder meets it only when the ENGINE executes it. -/
theorem cmdWriteIsAcceptedOrDropped : Obligations.CmdWriteIsAcceptedOrDropped := by
  unfold Obligations.CmdWriteIsAcceptedOrDropped
  intro s w rest hturns
  rw [step_cmdWrite hturns]
  refine ⟨fun hpend herr => ?_, fun hbusy => ?_, fun r => illegalWhenExecuted_of_decode_error⟩
  · exact congrArg Host.Outcome.next (offerCommand_accepted w hpend herr)
  · exact congrArg Host.Outcome.next (offerCommand_dropped w hbusy)

/-! ### The ENGINE does not read DIN (20_memory.md R59) -/

/-- The state with another DIN. -/
def State.withDin (s : State) (d : Raw256) : State := { s with din := d }

variable {d : Raw256}

/-- A completion commutes with a change of DIN when its rule does. -/
theorem complete_withDin {rule ruleD : Pending → Result State} (h : s.complete rule = .next t)
    (hrule : ∀ p, ruleD p = (rule p).map (State.withDin · d)) : (s.withDin d).complete ruleD = .next (t.withDin d) := by
  obtain ⟨p, hp, ⟨u, hu, rfl⟩ | ⟨c, hc, rfl⟩⟩ := complete_cases h
  · exact complete_ok (s.withDin d) (u.withDin d) p ruleD hp (by rw [hrule, hu]; rfl)
  · exact complete_error (s.withDin d) p c ruleD hp (by rw [hrule, hc]; rfl)

/-- A rule commutes with a change of DIN when it reads a value that does not depend on DIN and what it then does commutes. -/
theorem bind_withDin {α : Type} (x : Result α) {f fD : α → Result State} (hf : ∀ a, fD a = (f a).map (State.withDin · d)) :
    (x >>= fD) = (x >>= f).map (State.withDin · d) := by
  cases x with
  | error c => rfl
  | ok a => exact hf a

theorem binaryField_withDin {op : Elem → Elem → Result Elem} {rd ra rb : Reg} (h : binaryField op rd ra rb s = .next t) :
    binaryField op rd ra rb (s.withDin d) = .next (t.withDin d) :=
  complete_withDin h fun _ => bind_withDin (src2 s ra rb) fun (a, b) => bind_withDin (op a b) fun _ => rfl

/-- Every meaning commutes with a change of DIN: it takes FLD's value from the snapshot in PEND and its operands from FE. -/
theorem exec_withDin {i : Instr} (h : exec i s = .next t) : exec i (s.withDin d) = .next (t.withDin d) := by
  cases i with
  | fld rd tag => exact complete_withDin (rule := fun p => .ok (s.writeFe rd ⟨residue p.din.toNat, tag⟩)) h fun _ => rfl
  | fldc rd k => exact complete_withDin (rule := fun _ => .ok (s.writeFe rd (constOf k))) h fun _ => rfl
  | fst ra => exact complete_withDin h fun _ => bind_withDin (src s ra) fun _ => rfl
  | fadd rd ra rb => exact binaryField_withDin h
  | fsub rd ra rb => exact binaryField_withDin h
  | fmul rd ra rb => exact binaryField_withDin h
  | fdiv rd ra rb => exact binaryField_withDin h
  | finv rd rb => exact complete_withDin h fun _ => bind_withDin (src s rb) fun b => bind_withDin (nonzero b) fun _ => rfl
  | feq ra rb => exact complete_withDin h fun _ => bind_withDin (src2 s ra rb) fun (a, b) => bind_withDin (feq a b) fun _ => rfl
  | ponc ra => exact complete_withDin h fun _ => bind_withDin (pt s ra) fun (x, y) => bind_withDin (onCurve x y) fun _ => rfl
  | pdbl rd ra =>
    exact complete_withDin h fun _ => bind_withDin (evenReg rd) fun _ => bind_withDin (pt s ra) fun (x, y) =>
      bind_withDin (doublePoint x y) fun _ => rfl
  | pser ra => exact complete_withDin h fun _ => bind_withDin (pt s ra) fun _ => rfl
  | addr ra net => exact complete_withDin h fun _ => bind_withDin (pt s ra) fun _ => rfl

/-- With a command pending, legal or not, the ENGINE has a step. -/
theorem engineStep_next {p : Pending} (hp : s.pend = some p) : ∃ t, engineStep s = .next t := by
  cases hd : decode p.cmd with
  | ok i =>
    rw [engineStep_decoded hp hd]
    exact exec_next i s p hp
  | error r => exact ⟨_, engineStep_illegal hp hd⟩

/-- The ENGINE's step commutes with a change of DIN. -/
theorem engineStep_withDin (h : engineStep s = .next t) : engineStep (s.withDin d) = .next (t.withDin d) := by
  obtain ⟨p, hp, ⟨i, hd, hexec⟩ | ⟨⟨r, hd⟩, rfl⟩⟩ := engineStep_cases h
  · rw [engineStep_decoded (s := s.withDin d) hp hd]
    exact exec_withDin hexec
  · exact engineStep_illegal (s := s.withDin d) hp hd

theorem hostWrite_din (s : State) (w : Word) {k : Nat} (hk : k ≤ 7) :
    s.hostWrite (BitVec.ofNat 12 (0x020 + 4 * k)) w = s.withDin (setWord s.din k w) := by
  simp only [State.hostWrite, windowReg_din hk, State.withDin]

theorem dinOffset_aligned (k : Nat) : (BitVec.ofNat 12 (0x020 + 4 * k)).toNat % 4 = 0 := by
  rw [BitVec.toNat_ofNat]
  omega

/-- Settles O43: the write changes DIN alone, and the ENGINE's step commutes with that change. -/
theorem dinWriteNeverAffectsThePendingCommand : Obligations.DinWriteNeverAffectsThePendingCommand := by
  unfold Obligations.DinWriteNeverAffectsThePendingCommand
  intro s k w rest hk hturns
  refine ⟨setWord s.din k w, ?_, fun hpend => ?_⟩
  · rw [step_hostWrite hturns (dinOffset_aligned k), hostWrite_din _ w hk]
    rfl
  · obtain ⟨p, hp⟩ := Option.ne_none_iff_exists'.1 hpend
    obtain ⟨u, hu⟩ := engineStep_next (s := { s with turns := [] }) hp
    exact ⟨u, (step_no_turn rfl).trans hu, (step_no_turn rfl).trans (engineStep_withDin hu)⟩

end Sys2Proof.Machine
end

section
/-! SUPPORT. The words of 30_encoding.md R84 against the decoder's table, and the statement of R86 settled from it. -/

namespace Sys2Proof.Machine

open Sys2Proof.Terms

variable {w : Word}

/-- The statements' copy of R84's match and mask columns is the decoder's table. -/
theorem rowsOfR84_eq : rowsOfR84 = opcodeTable.map fun r => (r.matchBits, r.mask) := rfl

/-- The statements' copy of R84's opcodes is the decoder's table's. -/
theorem opcodesOfR84_eq : opcodesOfR84 = opcodeTable.map fun r => opField r.matchBits := by decide

/-- An imm8 that names a network is one of the two network bytes (30_encoding.md R82). -/
theorem networkByte_of_networkOf? {b : Byte} {net : Network} (h : networkOf? b = some net) : b = 0x00#8 ∨ b = 0x6F#8 := by
  unfold networkOf? at h
  split at h
  next hmain => exact .inl hmain
  next =>
    split at h
    next htest => exact .inr htest
    next => cases h

/-- Among the rows of the table ADDR's alone has the match of R84's extra constraint. -/
theorem mnemonic_eq_addr : ∀ r ∈ opcodeTable, r.matchBits = 0x80000000#32 → r.mnemonic = .ADDR := by decide

/-- A word of ADDR's row that decodes has a network byte (30_encoding.md R84). -/
theorem networkByte_of_readOperands_addr {i : Instr} (h : readOperands .ADDR w = .ok i) :
    w.extractLsb' 0 8 = 0x00#8 ∨ w.extractLsb' 0 8 = 0x6F#8 := by
  simp only [readOperands] at h
  split at h
  next hnet => exact networkByte_of_networkOf? hnet
  next => cases h

/-- A word that decodes is of one of R84's rows, with ADDR's constraint. -/
theorem encodesACommand_of_decode {i : Instr} (h : decode w = .ok i) : EncodesACommand w := by
  obtain ⟨r, hr, hhit, hread⟩ := hit_of_decode h
  refine ⟨(r.matchBits, r.mask), rowsOfR84_eq ▸ List.mem_map_of_mem hr, hhit, fun haddr => ?_⟩
  rw [mnemonic_eq_addr r hr haddr] at hread
  exact networkByte_of_readOperands_addr hread

/-- A word that encodes a command has an opcode of the opcode map. -/
theorem opcode_mem_of_encodesACommand (h : EncodesACommand w) : w.extractLsb' 26 6 ∈ opcodesOfR84 := by
  obtain ⟨row, hrow, hhit, -⟩ := h
  rw [rowsOfR84_eq] at hrow
  obtain ⟨r, hr, rfl⟩ := List.mem_map.1 hrow
  rw [opcodesOfR84_eq]
  exact List.mem_map.2 ⟨r, hr, (opField_of_hit hr hhit).symm⟩

theorem illegalWhenExecuted_of_not_encodesACommand (h : ¬ EncodesACommand w) : IllegalWhenExecuted w := by
  cases hd : decode w with
  | ok i => exact absurd (encodesACommand_of_decode hd) h
  | error r => exact illegalWhenExecuted_of_decode_error hd

/-- Settles O5: a word of no row of R84 is rejected by the decoder, and a reserved opcode, such as the zero word's, is in no row. -/
theorem illegalWordsRaiseIllegalCommand : Obligations.IllegalWordsRaiseIllegalCommand := by
  unfold Obligations.IllegalWordsRaiseIllegalCommand
  have hreserved (v : Word) (hop : v.extractLsb' 26 6 ∉ opcodesOfR84) : IllegalWhenExecuted v :=
    illegalWhenExecuted_of_not_encodesACommand (mt opcode_mem_of_encodesACommand hop)
  exact ⟨hreserved, hreserved 0#32 (by decide), fun _ => illegalWhenExecuted_of_not_encodesACommand⟩

end Sys2Proof.Machine
end

section
/-! SUPPORT. The field commands: their rows of 30_encoding.md R84, the values and laws of the field primitives, the frame of every
command, and the statements of 40_field_arithmetic.md settled from them. -/

namespace Sys2Proof.Machine

open Sys2Proof.Terms

variable {s t : State} {p : Pending} {rd ra rb : Reg} {a b : Elem}

/-! ### Rows of R84 executed -/

theorem executesAs_of_decode {w : Word} {i : Instr} (h : decode w = .ok i) : ExecutesAs w i := by
  intro s rest din hnext hpend
  rw [step_engine_next hnext hpend]
  exact engineStep_decoded (p := ⟨w, din⟩) hpend h

/-- A row whose operands always read executes its command: a word of its opcode that it does not match is of no row, since no two rows
share an opcode (30_encoding.md R90). -/
theorem rowExecutes_of_mem {m : Mnemonic} {op : BitVec 6} {matchBits mask : Word} {command : Word → Instr}
    (hrow : ⟨m, matchBits, mask⟩ ∈ opcodeTable) (hop : opField matchBits = op)
    (hread : ∀ w, readOperands m w = .ok (command w)) : RowExecutes op matchBits mask command := by
  intro w hw
  refine ⟨fun hhit => executesAs_of_decode ((decode_of_hit hrow hhit).trans (hread w)), fun hmiss => ?_⟩
  have hnone : ∀ r ∈ opcodeTable, w &&& r.mask ≠ r.matchBits := by
    intro r hr hhit
    have hsame : opField r.matchBits = opField matchBits := (opField_of_hit hr hhit).symm.trans (hw.trans hop.symm)
    have hrow_eq : r = ⟨m, matchBits, mask⟩ := List.inj_on_of_nodup_map opcodes_differ hr hrow hsame
    subst hrow_eq
    exact hmiss hhit
  exact illegalWhenExecuted_of_decode_error (decode_of_no_hit hnone)

/-! ### FLD, FLDC, FST (R103 to R105) -/

theorem two_pow_256_lt_two_mul_P : 2 ^ 256 < 2 * Config.P := by decide

/-- One subtraction of P is enough for a 256-bit integer. -/
theorem mod_P_of_raw256 (d : Raw256) : d.toNat % Config.P = d.toNat ∨ d.toNat % Config.P + Config.P = d.toNat := by
  have hd := d.isLt.trans two_pow_256_lt_two_mul_P
  by_cases hlt : d.toNat < Config.P
  · exact .inl (Nat.mod_eq_of_lt hlt)
  · right
    rw [Nat.mod_eq_sub_mod (by omega), Nat.mod_eq_of_lt (by omega)]
    omega

/-- Settles O12: the meaning's reduction is the remainder, and the snapshot is below 2P. -/
theorem fldLoadsTheSnapshotModP : Obligations.FldLoadsTheSnapshotModP := by
  unfold Obligations.FldLoadsTheSnapshotModP
  refine ⟨rowExecutes_of_mem (m := .FLD) (by decide) (by decide) fun _ => rfl, fun s p rd t hp => ?_⟩
  refine ⟨residue p.din.toNat, residue_val_nat _, ?_, execFld_ok hp t⟩
  rw [residue_val_nat]
  exact mod_P_of_raw256 p.din

/-- The decoder's constant is the one at the index in R104's list. -/
theorem constSelOf_eq_getD (k : BitVec 2) : constSelOf k = [ConstSel.b, .gx, .gy, .one].getD k.toNat .b := by
  revert k
  decide

@[simp] theorem constOf_tag (k : ConstSel) : (constOf k).tag = 0 := by cases k <;> rfl

/-- Settles O13: each constant is below P, so it is loaded as it is. -/
theorem fldcLoadsTheConstant : Obligations.FldcLoadsTheConstant := by
  unfold Obligations.FldcLoadsTheConstant
  refine ⟨rowExecutes_of_mem (m := .FLDC) (by decide) (by decide) fun w => ?_, fun s p rd k hp => ⟨(constOf k).value, ?_, ?_⟩⟩
  · exact congrArg (fun c => Except.ok (Instr.fldc (rdOf w) c)) (constSelOf_eq_getD _)
  · cases k with
    | b => exact constElem_value Config.curveB (by decide)
    | gx => exact constElem_value Config.Gx (by decide)
    | gy => exact constElem_value Config.Gy (by decide)
    | one => exact constElem_value 1 one_lt_P
  · rw [← constOf_tag k]
    exact execFldc_ok hp k

/-- DOUT holds every field value exactly (10_state.md R34). -/
theorem residue_ofNat_toNat (v : Residue) : (BitVec.ofNat 256 v.val).toNat = v.val := by
  rw [BitVec.toNat_ofNat, Nat.mod_eq_of_lt (v.isLt.trans P_lt)]

/-- Settles O14, by whether the source is valid. -/
theorem fstCopiesTheElementOut : Obligations.FstCopiesTheElementOut := by
  unfold Obligations.FstCopiesTheElementOut
  refine ⟨rowExecutes_of_mem (m := .FST) (by decide) (by decide) fun _ => rfl, fun s p ra hp => ⟨fun a ha => ?_, ?_⟩⟩
  · exact ⟨_, residue_ofNat_toNat a.value, execFst_ok hp ha⟩
  · exact execFst_invalid hp

/-! ### FADD, FSUB, FMUL, FDIV (R106 to R109) -/

/-- What the two-operand commands without a zero test do, by the sources: of one tag, an INVALID one, of two tags. -/
theorem binaryField_by_sources {op : Elem → Elem → Result Elem} {result : Elem → Elem → Residue} {value : Elem → Elem → Nat}
    (hp : s.pend = some p) (hok : ∀ {a b : Elem}, a.tag = b.tag → op a b = .ok ⟨result a b, a.tag⟩)
    (hmismatch : ∀ {a b : Elem}, a.tag ≠ b.tag → op a b = .error .fieldMismatch)
    (hvalue : ∀ a b, (result a b).val = value a b) :
    (∀ a b, s.fe[ra.val] = some a → s.fe[rb.val] = some b → a.tag = b.tag →
      ∃ v : Residue, v.val = value a b ∧
        binaryField op rd ra rb s = .next { s with fe := s.fe.set rd.val (some ⟨v, a.tag⟩), pend := none }) ∧
    (s.fe[ra.val] = none ∨ s.fe[rb.val] = none → binaryField op rd ra rb s = .next (latched s 2 p.cmd)) ∧
    (∀ a b, s.fe[ra.val] = some a → s.fe[rb.val] = some b → a.tag ≠ b.tag →
      binaryField op rd ra rb s = .next (latched s 3 p.cmd)) := by
  refine ⟨fun a b ha hb htag => ⟨_, hvalue a b, ?_⟩, ?_, fun a b ha hb htag => ?_⟩
  · exact binaryField_ok hp ha hb (hok htag)
  · exact binaryField_invalid hp
  · exact binaryField_error hp ha hb (hmismatch htag)

/-- Settles O15: FADD is `fadd` of its sources, whose value is the sum mod P. -/
theorem faddSumsModP : Obligations.FaddSumsModP := by
  unfold Obligations.FaddSumsModP
  refine ⟨rowExecutes_of_mem (m := .FADD) (by decide) (by decide) fun _ => rfl, fun s p rd ra rb hp => ?_⟩
  exact binaryField_by_sources hp fadd_ok fadd_mismatch fun a b => residue_add_val a.value b.value

/-- The floored difference is the difference, or P more where that is negative (R107). -/
theorem minus_val (v w : Residue) :
    (minus v w).val = if w.val ≤ v.val then v.val - w.val else v.val + Config.P - w.val := by
  have hv := v.isLt
  have hw := w.isLt
  have hint := minus_val_int v w
  split
  next hle =>
    rw [Int.emod_eq_of_lt (by omega) (by omega)] at hint
    omega
  next hlt =>
    rw [← Int.add_emod_right, Int.emod_eq_of_lt (by omega) (by omega)] at hint
    omega

/-- Settles O16: FSUB is `fsub` of its sources, whose value is the floored difference. -/
theorem fsubDifferencesModP : Obligations.FsubDifferencesModP := by
  unfold Obligations.FsubDifferencesModP
  refine ⟨rowExecutes_of_mem (m := .FSUB) (by decide) (by decide) fun _ => rfl, fun s p rd ra rb hp => ?_⟩
  exact binaryField_by_sources hp fsub_ok fsub_mismatch fun a b => minus_val a.value b.value

/-- Settles O17: FMUL is `fmul` of its sources, whose value is the product mod P. -/
theorem fmulMultipliesModP : Obligations.FmulMultipliesModP := by
  unfold Obligations.FmulMultipliesModP
  refine ⟨rowExecutes_of_mem (m := .FMUL) (by decide) (by decide) fun _ => rfl, fun s p rd ra rb hp => ?_⟩
  exact binaryField_by_sources hp fmul_ok fmul_mismatch fun a b => times_val a.value b.value

/-- The quotient is the product with the divisor's power (R109). -/
theorem times_inverse_val (v w : Residue) :
    (times v (inverse w)).val = v.val * (w.val ^ (Config.P - 2) % Config.P) % Config.P := by
  rw [times_val, inverse_val]

/-- Settles O18, by the sources: one tag and a divisor not 0, an INVALID one, two tags, one tag and a divisor 0. -/
theorem fdivMultipliesByThePower : Obligations.FdivMultipliesByThePower := by
  unfold Obligations.FdivMultipliesByThePower
  refine ⟨rowExecutes_of_mem (m := .FDIV) (by decide) (by decide) fun _ => rfl, fun s p rd ra rb hp => ⟨?_, ?_, ?_, ?_⟩⟩
  · intro a b ha hb htag hb0
    exact ⟨_, times_inverse_val a.value b.value, binaryField_ok hp ha hb (fdiv_ok htag hb0)⟩
  · exact binaryField_invalid hp
  · intro a b ha hb htag
    exact binaryField_error hp ha hb (fdiv_mismatch htag)
  · intro a b ha hb htag hb0
    exact binaryField_error hp ha hb (fdiv_zero htag hb0)

/-! ### FINV, FEQ (R110, R111) -/

/-- Settles O19, by the source: valid and not 0, INVALID, 0. -/
theorem finvRaisesToThePower : Obligations.FinvRaisesToThePower := by
  unfold Obligations.FinvRaisesToThePower
  refine ⟨rowExecutes_of_mem (m := .FINV) (by decide) (by decide) fun _ => rfl, fun s p rd rb hp => ⟨?_, ?_, ?_⟩⟩
  · intro b hb hb0
    exact ⟨_, inverse_val b.value, execFinv_ok hp hb hb0⟩
  · exact execFinv_invalid hp
  · intro b hb hb0
    exact execFinv_zero hp hb hb0

/-- Settles O20, by the sources: one tag, an INVALID one, two tags. -/
theorem feqComparesValues : Obligations.FeqComparesValues := by
  unfold Obligations.FeqComparesValues
  refine ⟨rowExecutes_of_mem (m := .FEQ) (by decide) (by decide) fun _ => rfl, fun s p ra rb hp => ⟨?_, ?_, ?_⟩⟩
  · intro a b ha hb htag
    exact execFeq_ok hp ha hb htag
  · exact execFeq_invalid hp
  · intro a b ha hb htag
    exact execFeq_mismatch hp ha hb htag

/-! ### The field laws (R112) -/

theorem minus_self_val (v : Residue) : (minus v v).val = 0 := by simp [minus_val]

theorem times_inverse_self_val {v : Residue} (h : v.val ≠ 0) : (times v (inverse v)).val = 1 := by
  rw [times_val, mul_inverse v h]

theorem times_of_val_eq_one {v : Residue} (h : v.val = 1) (w : Residue) : times v w = w := by
  apply Fin.ext
  rw [times_val, h, one_mul, Nat.mod_eq_of_lt w.isLt]

/-- A quotient times its divisor is the dividend. -/
theorem times_quotient_divisor (v : Residue) {w : Residue} (h : w.val ≠ 0) : times (times v (inverse w)) w = v := by
  apply Fin.ext
  calc (times (times v (inverse w)) w).val
      = v.val * (w.val * (inverse w).val % Config.P) % Config.P := by
        rw [times_val, times_val, Nat.mod_mul_mod, Nat.mul_mod_mod, mul_assoc, mul_comm (inverse w).val]
    _ = v.val := by rw [mul_inverse w h, mul_one, Nat.mod_eq_of_lt v.isLt]

theorem writeFe_getElem_same (s : State) (r : Reg) (e : Elem) : (s.writeFe r e).fe[r.val] = some e :=
  readFe_writeFe_same s r e

theorem writeFe_getElem_ne (s : State) {r q : Reg} (e : Elem) (h : r ≠ q) : (s.writeFe r e).fe[q.val] = s.fe[q.val] :=
  readFe_writeFe_ne s r q e h

/-- The register that a completing FMUL leaves. -/
theorem exec_fmul_writes (hp : s.pend = some p) (ha : s.fe[ra.val] = some a) (hb : s.fe[rb.val] = some b)
    (htag : a.tag = b.tag) :
    ∃ u, exec (.fmul rd ra rb) s = .next u ∧ u.fe[rd.val] = some ⟨times a.value b.value, a.tag⟩ :=
  ⟨_, binaryField_ok hp ha hb (fmul_ok htag), writeFe_getElem_same s rd _⟩

/-- FMUL of an untouched register and the register just written. -/
theorem exec_fmul_by_written {q : Pending} {re : Reg} {e : Elem} (ha : s.fe[ra.val] = some a) (hne : rd ≠ ra)
    (htag : a.tag = e.tag) :
    ∃ u, exec (.fmul re ra rd) { (s.writeFe rd e).emptyPend with pend := some q } = .next u ∧
      u.fe[re.val] = some ⟨times a.value e.value, a.tag⟩ :=
  exec_fmul_writes (s := { (s.writeFe rd e).emptyPend with pend := some q }) rfl
    ((writeFe_getElem_ne s e hne).trans ha) (writeFe_getElem_same s rd e) htag

/-- FMUL of the register just written and an untouched one. -/
theorem exec_fmul_of_written {q : Pending} {re : Reg} {e : Elem} (hb : s.fe[rb.val] = some b) (hne : rd ≠ rb)
    (htag : e.tag = b.tag) :
    ∃ u, exec (.fmul re rd rb) { (s.writeFe rd e).emptyPend with pend := some q } = .next u ∧
      u.fe[re.val] = some ⟨times e.value b.value, e.tag⟩ :=
  exec_fmul_writes (s := { (s.writeFe rd e).emptyPend with pend := some q }) rfl
    (writeFe_getElem_same s rd e) ((writeFe_getElem_ne s e hne).trans hb) htag

/-- Settles O28: the first command's register feeds the second, and the values are the laws' of the field mod the prime P. -/
theorem fieldLawsHoldOfTheCommands : Obligations.FieldLawsHoldOfTheCommands := by
  unfold Obligations.FieldLawsHoldOfTheCommands
  refine ⟨?_, ?_, ?_, ?_⟩
  · intro s p rd ra a hp ha
    exact ⟨_, _, minus_self_val a.value, binaryField_ok hp ha ha (fsub_ok rfl), writeFe_getElem_same s rd _⟩
  · intro s p q rd re ra a hp ha ha0 hne
    obtain ⟨u, hmul, hres⟩ := exec_fmul_by_written (e := ⟨inverse a.value, a.tag⟩) ha hne rfl
    exact ⟨_, u, _, times_inverse_self_val ha0, execFinv_ok hp ha ha0, hmul, hres⟩
  · intro s p q rd re ra ro a one hp ha ha0 hone hone1 htag hne
    obtain ⟨u, hmul, hres⟩ := exec_fmul_by_written (e := ⟨times one.value (inverse a.value), one.tag⟩) ha hne htag.symm
    refine ⟨_, u, _, ?_, binaryField_ok hp hone ha (fdiv_ok htag ha0), hmul, hres⟩
    rw [times_of_val_eq_one hone1]
    exact times_inverse_self_val ha0
  · intro s p q rd re ra rb a b hp ha hb htag hb0 hne
    obtain ⟨u, hmul, hres⟩ := exec_fmul_of_written (e := ⟨times a.value (inverse b.value), a.tag⟩) hb hne htag
    refine ⟨_, u, binaryField_ok hp ha hb (fdiv_ok htag hb0), hmul, ?_⟩
    rw [hres, times_quotient_divisor a.value hb0]

/-! ### The frame of all commands (R114, 10_state.md R23) -/

/-- An ill-formed command given to `exec` is an IllegalCommand (log 10). -/
theorem exec_illFormed {i : Instr} (hi : i.wf = false) (hp : s.pend = some p) :
    exec i s = .next (s.errorCompletion .illegalCommand p.cmd) := by
  cases i with
  | ponc ra => exact execPonc_error hp (pt_odd (by simpa [Instr.wf, Reg.isEven] using hi))
  | pser ra => exact execPser_error hp (pt_odd (by simpa [Instr.wf, Reg.isEven] using hi))
  | addr ra net => exact execAddr_error net hp (pt_odd (by simpa [Instr.wf, Reg.isEven] using hi))
  | pdbl rd ra =>
    by_cases hrd : rd.val % 2 = 0
    · exact execPdbl_error hp hrd (pt_odd (by simpa [Instr.wf, Reg.isEven, hrd] using hi))
    · exact complete_error s p _ _ hp (by rw [evenReg_odd hrd]; rfl)
  | _ => cases hi

/-- Everything any command can do, well-formed or not: an error completion, or its update with PEND emptied. -/
theorem exec_next_cases {i : Instr} (h : exec i s = .next t) :
    (∃ c cmd, t = s.errorCompletion c cmd) ∨ ∃ u, Effect s u i ∧ t = u.emptyPend := by
  cases hp : s.pend with
  | none =>
    rw [exec_idle i s hp] at h
    cases h
  | some p =>
    cases hi : i.wf with
    | false => exact .inl ⟨_, _, next_inj ((exec_illFormed hi hp).symm.trans h)⟩
    | true =>
      rcases exec_cases hi hp h with ⟨c, -, ht⟩ | heffect
      · exact .inl ⟨c, _, ht⟩
      · exact .inr heffect

/-- From s to t nothing changed but destinations of i, PEND and the error fields. -/
def KeepsAllButDestinations (i : Instr) (s t : State) : Prop :=
  (∀ r : Reg, isDestination r i = false → t.fe[r.val] = s.fe[r.val]) ∧
  (¬ writesDout i → t.dout = s.dout ∧ t.dtag = s.dtag) ∧ (¬ writesEq i → t.eq = s.eq) ∧ (¬ writesOnc i → t.onc = s.onc) ∧
  (¬ writesOut i → t.out = s.out ∧ t.outlen = s.outlen) ∧
  t.din = s.din ∧ t.drop = s.drop ∧ t.turns = s.turns ∧ t.hostReads = s.hostReads

variable {i : Instr}

theorem keepsAllButDestinations_errorCompletion (c : Cause) (cmd : Word) :
    KeepsAllButDestinations i s (s.errorCompletion c cmd) := by
  simp [KeepsAllButDestinations]

theorem keepsAllButDestinations_writeFe {e : Elem} (hrd : isDestination rd i = true) :
    KeepsAllButDestinations i s (s.writeFe rd e) := by
  refine ⟨fun r hr => writeFe_getElem_ne s e fun heq => ?_, by simp⟩
  simp [← heq, hrd] at hr

theorem keepsAllButDestinations_emptyPend : KeepsAllButDestinations i s s.emptyPend := by
  simp [KeepsAllButDestinations]

theorem KeepsAllButDestinations.trans {u : State} (hst : KeepsAllButDestinations i s t) (htu : KeepsAllButDestinations i t u) :
    KeepsAllButDestinations i s u := by
  simp_all [KeepsAllButDestinations]

theorem keepsAllButDestinations_of_effect (h : Effect s t i) : KeepsAllButDestinations i s t := by
  cases i with
  | fst ra =>
    obtain ⟨e, -, rfl⟩ := h
    simp [KeepsAllButDestinations, writesDout]
  | feq ra rb =>
    obtain ⟨v, rfl⟩ := h
    simp [KeepsAllButDestinations, writesEq]
  | ponc ra =>
    obtain ⟨v, rfl⟩ := h
    simp [KeepsAllButDestinations, writesOnc]
  | pser ra =>
    obtain ⟨x, y, rfl⟩ := h
    simp [KeepsAllButDestinations, writesOut]
  | addr ra net =>
    obtain ⟨x, y, rfl⟩ := h
    simp [KeepsAllButDestinations, writesOut]
  | pdbl rd ra =>
    obtain ⟨x, y, rfl⟩ := h
    exact (keepsAllButDestinations_writeFe (by simp [isDestination])).trans
      (keepsAllButDestinations_writeFe (by simp [isDestination]))
  | _ =>
    obtain ⟨e, rfl⟩ := h
    exact keepsAllButDestinations_writeFe (by simp [isDestination])

/-- Settles O29: a command fails and leaves all results, or completes by its update, which touches its destinations alone. -/
theorem commandsChangeOnlyTheirDestinations : Obligations.CommandsChangeOnlyTheirDestinations := by
  unfold Obligations.CommandsChangeOnlyTheirDestinations
  intro i s t hexec
  rcases exec_next_cases hexec with ⟨c, cmd, rfl⟩ | ⟨u, heffect, rfl⟩
  · exact keepsAllButDestinations_errorCompletion c cmd
  · exact (keepsAllButDestinations_of_effect heffect).trans keepsAllButDestinations_emptyPend

end Sys2Proof.Machine
end

section
/-! SUPPORT. The point doubler: the values of the doubling formulas as the rules write them, and the statements of
41_point_doubler.md settled from them. -/

namespace Sys2Proof.Machine

open Sys2Proof.Terms

variable {s : State} {p : Pending} {rd ra : Reg} {x y : Elem}

/-! ### PONC (R142) -/

/-- The test of a pair of tag 0 answers whether the curve equation holds. -/
theorem onCurve_decides_curveEquation (hx0 : x.tag = 0) (hy0 : y.tag = 0) :
    ∃ v : Bool, (v = true ↔ CurveEquation x.value.val y.value.val) ∧ onCurve x y = .ok v := by
  refine ⟨_, ?_, onCurve_ok hx0 hy0⟩
  exact decide_eq_true_iff

/-- Settles O21, by the pair: of tag 0, with an INVALID register, of two tags, of one tag that is not 0. -/
theorem poncDecidesTheCurveEquation : Obligations.PoncDecidesTheCurveEquation := by
  unfold Obligations.PoncDecidesTheCurveEquation
  refine ⟨rowExecutes_of_mem (m := .PONC) (by decide) (by decide) fun _ => rfl, fun s p ra hp hra => ⟨?_, ?_, ?_⟩⟩
  · intro x y hx hy hx0 hy0
    obtain ⟨v, hv, hon⟩ := onCurve_decides_curveEquation hx0 hy0
    exact ⟨v, hv, execPonc_of_pt v hp (pt_ok hra hx hy (hx0.trans hy0.symm)) hon⟩
  · intro hinvalid
    exact execPonc_error hp (pt_invalid hra hinvalid)
  · intro x y hx hy hmismatch
    by_cases htag : x.tag = y.tag
    · have hx0 : x.tag ≠ 0 := hmismatch.resolve_left (not_not_intro htag)
      exact execPonc_not_on_tag hp (pt_ok hra hx hy htag) (onCurve_mismatch hx0)
    · exact execPonc_error hp (pt_mismatch hra hx hy htag)

/-! ### PDBL (R141) -/

theorem times_val_int (v w : Residue) : ((times v w).val : Int) = (v.val : Int) * w.val % (Config.P : Int) :=
  residue_val_int _

theorem twice_val_int (v : Residue) : ((twice v).val : Int) = 2 * (v.val : Int) % (Config.P : Int) := by
  exact_mod_cast twice_val v

/-- The slope is (3·X²) · (2·Y)^(P-2), reduced once. -/
theorem tangentSlope_val (v w : Residue) :
    (tangentSlope v w).val = 3 * (v.val * v.val) * ((2 * w.val) ^ (Config.P - 2) % Config.P) % Config.P := by
  rw [tangentSlope, times_inverse_val, thrice_val, times_val, twice_val, ← Nat.pow_mod, Nat.mod_mul_mod]
  exact ((Nat.mod_modEq _ _).mul_left 3).mul_right _

/-- X' is c² − 2·X over the integers, reduced once. -/
theorem doubleX_val_int (v w : Residue) :
    ((doubleX v w).val : Int)
      = ((tangentSlope v w).val * (tangentSlope v w).val - 2 * v.val : Int) % (Config.P : Int) := by
  rw [doubleX, minus_val_int, times_val_int, twice_val_int, ← Int.sub_emod]

/-- Y' is c·(X − X') − Y over the integers, reduced once. -/
theorem doubleY_val_int (v w : Residue) :
    ((doubleY v w).val : Int)
      = ((tangentSlope v w).val * (v.val - (doubleX v w).val) - w.val : Int) % (Config.P : Int) := by
  rw [doubleY, minus_val_int, times_val_int, minus_val_int, Int.emod_sub_emod]
  exact ((Int.mod_modEq _ _).mul_left _).sub_right _

/-- On a valid pair of one tag with Y not 0, PDBL writes the doubled pair at rd and rd + 1. -/
theorem execPdbl_ok (hp : s.pend = some p) (hrd : rd.val % 2 = 0) (hra : ra.val % 2 = 0) (hx : s.fe[ra.val] = some x)
    (hy : s.fe[(ra + 1).val] = some y) (htag : x.tag = y.tag) (hy0 : y.value.val ≠ 0) :
    execPdbl rd ra s = .next ((s.writeFe rd ⟨doubleX x.value y.value, x.tag⟩).writeFe (rd + 1)
      ⟨doubleY x.value y.value, x.tag⟩).emptyPend := by
  rw [← pairY_eq rd]
  exact execPdbl_of_pt hp hrd (pt_ok hra hx hy htag) (doublePoint_ok htag hy0)

/-- Settles O22, by the pair: of one tag with Y not 0, with an INVALID register, of two tags, of one tag with Y = 0. -/
theorem pdblDoublesThePoint : Obligations.PdblDoublesThePoint := by
  unfold Obligations.PdblDoublesThePoint
  refine ⟨rowExecutes_of_mem (m := .PDBL) (by decide) (by decide) fun _ => rfl,
    fun s p rd ra hp hrd hra => ⟨?_, ?_, ?_, ?_⟩⟩
  · intro x y hx hy htag hy0
    exact ⟨_, _, _, tangentSlope_val x.value y.value, doubleX_val_int x.value y.value, doubleY_val_int x.value y.value,
      execPdbl_ok hp hrd hra hx hy htag hy0⟩
  · intro hinvalid
    exact execPdbl_error hp hrd (pt_invalid hra hinvalid)
  · intro x y hx hy htag
    exact execPdbl_error hp hrd (pt_mismatch hra hx hy htag)
  · intro x y hx hy htag hy0
    exact execPdbl_no_double hp hrd (pt_ok hra hx hy htag) (doublePoint_zero htag hy0)

end Sys2Proof.Machine
end

section
/-! SUPPORT. The point serializer: the bytes of the compressed SEC encoding, and the statement of 42_point_serializer.md R160 settled
from them. -/

namespace Sys2Proof.Machine

open Sys2Proof.Terms

variable {s : State} {p : Pending} {ra : Reg} {x y : Elem}

/-- BE_n(v) as the digits of v in base 256 (00_scope.md R14). -/
theorem be_eq_ofFn (n v : Nat) : be n v = List.ofFn fun i : Fin n => BitVec.ofNat 8 (v / 256 ^ (n - 1 - i.val) % 256) := by
  refine List.ext_getElem (by simp) fun i hi _ => ?_
  rw [be_getElem n v i hi, List.getElem_ofFn]

/-- The bytes of PSER are the ones R160 spells out. -/
theorem secBytes_eq_secOf (x y : Elem) : secBytes x y = secOf x.value.val y.value.val :=
  congrArg (secPrefix y :: ·) (be_eq_ofFn 32 x.value.val)

@[simp] theorem secBytes_length (x y : Elem) : (secBytes x y).length = 33 := by simp [secBytes]

/-- A string of 33 bytes fills OUT. -/
theorem outOf_toList_of_length {b : ByteString} (h : b.length = 33) : (outOf b).toList = b := by
  simpa [h] using outOf_toList b h.le

/-- OUT after PSER holds the compressed SEC bytes and nothing beyond them. -/
theorem outOf_secBytes_toList (x y : Elem) : (outOf (secBytes x y)).toList = secOf x.value.val y.value.val :=
  (outOf_toList_of_length (secBytes_length x y)).trans (secBytes_eq_secOf x y)

/-- Writing the SEC bytes sets OUT, and OUTLEN to 33. -/
theorem writeOut_secBytes (s : State) (x y : Elem) :
    s.writeOut (secBytes x y) = { s with out := outOf (secBytes x y), outlen := 33 } := by
  simp only [State.writeOut, secBytes_length]
  rfl

/-- On a valid pair of one tag, PSER puts the SEC bytes in OUT. -/
theorem execPser_ok (hp : s.pend = some p) (hra : ra.val % 2 = 0) (hx : s.fe[ra.val] = some x)
    (hy : s.fe[(ra + 1).val] = some y) (htag : x.tag = y.tag) :
    execPser ra s = .next { s with out := outOf (secBytes x y), outlen := 33, pend := none } := by
  rw [execPser_of_pt hp (pt_ok hra hx hy htag), writeOut_secBytes]
  rfl

/-- Settles O25, by the pair: of one tag, with an INVALID register, of two tags. -/
theorem pserWritesTheSecBytes : Obligations.PserWritesTheSecBytes := by
  unfold Obligations.PserWritesTheSecBytes
  refine ⟨rowExecutes_of_mem (m := .PSER) (by decide) (by decide) fun _ => rfl, fun s p ra hp hra => ⟨?_, ?_, ?_⟩⟩
  · intro x y hx hy htag
    exact ⟨_, outOf_secBytes_toList x y, execPser_ok hp hra hx hy htag⟩
  · intro hinvalid
    exact execPser_error hp (pt_invalid hra hinvalid)
  · intro x y hx hy htag
    exact execPser_error hp (pt_mismatch hra hx hy htag)

end Sys2Proof.Machine
end

section
/-! SUPPORT. The address pipeline: ADDR's row of 30_encoding.md R84 with its network byte, the bytes of the payload, and the statement of
43_address_derivation.md R170 settled from them. -/

namespace Sys2Proof.Machine

open Sys2Proof.Terms

variable {w : Word} {s : State} {p : Pending} {ra : Reg} {x y : Elem} {net : Network}

/-! ### ADDR's row (R174, 30_encoding.md R84, R86) -/

/-- A word with the opcode of a row that does not match it is illegal: no other row has that opcode (30_encoding.md R90). -/
theorem illegalWhenExecuted_of_row_miss {r : OpcodeRow} (hr : r ∈ opcodeTable) (hop : opField w = opField r.matchBits)
    (hmiss : w &&& r.mask ≠ r.matchBits) : IllegalWhenExecuted w := by
  cases hd : decode w with
  | error e => exact illegalWhenExecuted_of_decode_error hd
  | ok i =>
    obtain ⟨q, hq, hhit, -⟩ := hit_of_decode hd
    have hqr : q = r := List.inj_on_of_nodup_map opcodes_differ hq hr ((opField_of_hit hq hhit).symm.trans hop)
    exact absurd (hqr ▸ hhit) hmiss

/-- The row of ADDR (30_encoding.md R84). -/
def addrRow : OpcodeRow := ⟨.ADDR, 0x80000000#32, 0xFFC7FF00#32⟩

theorem addrRow_mem : addrRow ∈ opcodeTable := by decide

/-- A word of ADDR's row whose byte names a network is ADDR on that network. -/
theorem executesAs_addr (hhit : w &&& 0xFFC7FF00#32 = 0x80000000#32) (hnet : networkOf? (w.extractLsb' 0 8) = some net) :
    ExecutesAs w (.addr (raOf w) net) := by
  apply executesAs_of_decode
  rw [decode_of_hit addrRow_mem hhit]
  simp only [addrRow, readOperands, imm8Field, hnet]
  rfl

/-- A word of ADDR's row whose byte names no network is illegal (30_encoding.md R86). -/
theorem illegalWhenExecuted_addr (hhit : w &&& 0xFFC7FF00#32 = 0x80000000#32) (hmain : w.extractLsb' 0 8 ≠ 0x00#8)
    (htest : w.extractLsb' 0 8 ≠ 0x6F#8) : IllegalWhenExecuted w := by
  cases hd : decode w with
  | error e => exact illegalWhenExecuted_of_decode_error hd
  | ok i =>
    have hread : readOperands .ADDR w = .ok i := (decode_of_hit addrRow_mem hhit).symm.trans hd
    rcases networkByte_of_readOperands_addr hread with hbyte | hbyte
    · exact absurd hbyte hmain
    · exact absurd hbyte htest

/-! ### The payload (R170 to R173) -/

/-- The machine's body is the one R170 spells out. -/
theorem addressBody_eq_bodyOf (b : Byte) (x y : Elem) :
    addressBody Config.sha256 Config.ripemd160 b (secBytes x y) = bodyOf b (secOf x.value.val y.value.val) := by
  rw [secBytes_eq_secOf]
  rfl

/-- The machine's payload is R170's body with the checksum of R173 behind it. -/
theorem addressPayload_eq (b : Byte) (x y : Elem) :
    addressPayload Config.sha256 Config.ripemd160 b (secBytes x y) =
      bodyOf b (secOf x.value.val y.value.val) ++ checksumOf (bodyOf b (secOf x.value.val y.value.val)) := by
  rw [addressPayload, addressBody_eq_bodyOf]
  rfl

/-- One network byte, 20 digest bytes and 4 checksum bytes, whatever the hash units compute (R172). -/
@[simp] theorem addressPayload_length (sha : ByteString → Vector Byte 32) (ripemd : ByteString → Vector Byte 20) (b : Byte)
    (sec : ByteString) : (addressPayload sha ripemd b sec).length = 25 := by
  simp [addressPayload, addressBody]

/-- OUT after ADDR holds the body, its checksum and eight zeros. -/
theorem outOf_addressPayload_toList (b : Byte) (x y : Elem) :
    (outOf (addressPayload Config.sha256 Config.ripemd160 b (secBytes x y))).toList =
      bodyOf b (secOf x.value.val y.value.val) ++ checksumOf (bodyOf b (secOf x.value.val y.value.val)) ++
        List.replicate 8 0x00#8 := by
  rw [outOf_toList _ (by simp), addressPayload_length, addressPayload_eq]
  rfl

/-- On a valid pair of one tag, ADDR puts the payload in OUT, and OUTLEN is 25. -/
theorem execAddr_ok (net : Network) (hp : s.pend = some p) (hra : ra.val % 2 = 0) (hx : s.fe[ra.val] = some x)
    (hy : s.fe[(ra + 1).val] = some y) (htag : x.tag = y.tag) :
    execAddr ra net s =
      .next { s with
        out := outOf (addressPayload Config.sha256 Config.ripemd160 net.byte (secBytes x y)), outlen := 25, pend := none } := by
  rw [execAddr_of_pt net hp (pt_ok hra hx hy htag), State.writeOut, addressPayload_length]
  rfl

/-- Settles O27, by the word's row and network byte, and by the pair: of one tag, with an INVALID register, of two tags. -/
theorem addrWritesThePayload : Obligations.AddrWritesThePayload := by
  unfold Obligations.AddrWritesThePayload
  refine ⟨fun w hop => ⟨fun hhit => ⟨fun hmain => ?_, fun htest => ?_, fun hmain htest => ?_⟩, fun hmiss => ?_⟩,
    fun s p ra net hp hra => ⟨?_, ?_, ?_⟩⟩
  · exact executesAs_addr hhit (by rw [hmain]; rfl)
  · exact executesAs_addr hhit (by rw [htest]; rfl)
  · exact illegalWhenExecuted_addr hhit hmain htest
  · exact illegalWhenExecuted_of_row_miss addrRow_mem hop hmiss
  · intro x y hx hy htag
    refine ⟨_, bodyOf net.byte (secOf x.value.val y.value.val), ?_, outOf_addressPayload_toList net.byte x y,
      execAddr_ok net hp hra hx hy htag⟩
    cases net with
    | mainnet => rfl
    | testnet => rfl
  · intro hinvalid
    exact execAddr_error net hp (pt_invalid hra hinvalid)
  · intro x y hx hy htag
    exact execAddr_error net hp (pt_mismatch hra hx hy htag)

end Sys2Proof.Machine
end

section
/-! SUPPORT. What a pending command does, by the causes of 60_exceptions.md R211 in their order, the return from the error state (R215),
and the statements of 60_exceptions.md settled from them. -/

namespace Sys2Proof.Machine

open Sys2Proof.Terms

variable {s : State} {p : Pending} {i : Instr} {r q rd : Reg} {a : Elem} {w : Word} {rest : List Turn}

/-! ### The conditions of R211 on the register file -/

theorem isEven_iff : Reg.isEven r = true ↔ r.val % 2 = 0 := beq_iff_eq

theorem any_invalid_one : [r].any (invalid s) = true ↔ s.fe[r.val] = none := by simp [invalid]

theorem any_invalid_two : [r, q].any (invalid s) = true ↔ s.fe[r.val] = none ∨ s.fe[q.val] = none := by simp [invalid]

theorem valid_of_any_invalid_false (h : [r].any (invalid s) = false) : ∃ a, s.fe[r.val] = some a :=
  Option.ne_none_iff_exists'.1 fun hnone => by simp [any_invalid_one.2 hnone] at h

theorem tagsDiffer_iff : tagsDiffer s r q = true ↔ ∃ a b, s.fe[r.val] = some a ∧ s.fe[q.val] = some b ∧ a.tag ≠ b.tag := by
  cases ha : s.fe[r.val] <;> cases hb : s.fe[q.val] <;> simp [tagsDiffer, ha, hb]

/-- Two sources, neither INVALID and not of two tags, are valid and of one tag. -/
theorem valid_pair_of_not_tagsDiffer (hvalid : [r, q].any (invalid s) = false) (htags : tagsDiffer s r q = false) :
    ∃ a b, s.fe[r.val] = some a ∧ s.fe[q.val] = some b ∧ a.tag = b.tag := by
  cases ha : s.fe[r.val] with
  | none => simp [invalid, ha] at hvalid
  | some a =>
    cases hb : s.fe[q.val] with
    | none => simp [invalid, hb] at hvalid
    | some b => exact ⟨a, b, rfl, rfl, by simpa [tagsDiffer, ha, hb] using htags⟩

theorem value_eq_zero_of_isZero (ha : s.fe[r.val] = some a) (h : isZero s r = true) : a.value.val = 0 := by
  simpa [isZero, ha] using h

theorem value_ne_zero_of_isZero_false (ha : s.fe[r.val] = some a) (h : isZero s r = false) : a.value.val ≠ 0 := by
  simpa [isZero, ha] using h

theorem tag_ne_zero_iff_tagNotZero (ha : s.fe[r.val] = some a) : a.tag ≠ 0 ↔ tagNotZero s r = true := by simp [tagNotZero, ha]

/-- A point whose two registers carry different tags is not read (41_point_doubler.md R140). -/
theorem pt_of_tagsDiffer (hr : Reg.isEven r = true) (h : tagsDiffer s r (r + 1) = true) : pt s r = .error .fieldMismatch := by
  obtain ⟨x, y, hx, hy, htag⟩ := tagsDiffer_iff.1 h
  exact pt_mismatch (isEven_iff.1 hr) hx hy htag

/-! ### What a legal command does, one lemma per step of R211 -/

/-- The outcome, from s, is that of a command that completes: PEND is empty and the error fields are those of s. -/
def Completes (s : State) (o : StepOutcome) : Prop :=
  ∃ t, o = .next t ∧ t.err = s.err ∧ t.errcause = s.errcause ∧ t.errinfo = s.errinfo ∧ t.pend = none

/-- FADD, FSUB, FMUL and FDIV over sources of two tags. -/
theorem binaryField_of_tagsDiffer {op : Elem → Elem → Result Elem} (hp : s.pend = some p)
    (hop : ∀ {a b : Elem}, a.tag ≠ b.tag → op a b = .error .fieldMismatch) (h : tagsDiffer s r q = true) :
    binaryField op rd r q s = .next (latched s 3 p.cmd) := by
  obtain ⟨a, b, ha, hb, htag⟩ := tagsDiffer_iff.1 h
  exact binaryField_error hp ha hb (hop htag)

/-- FADD, FSUB and FMUL over valid sources of one tag. -/
theorem binaryField_completes {op : Elem → Elem → Result Elem} {result : Elem → Elem → Elem} (hp : s.pend = some p)
    (hop : ∀ {a b : Elem}, a.tag = b.tag → op a b = .ok (result a b)) (hvalid : [r, q].any (invalid s) = false)
    (htags : tagsDiffer s r q = false) : Completes s (binaryField op rd r q s) := by
  obtain ⟨a, b, ha, hb, htag⟩ := valid_pair_of_not_tagsDiffer hvalid htags
  exact ⟨_, binaryField_ok hp ha hb (hop htag), rfl, rfl, rfl, rfl⟩

section

variable (hi : i.wf = true) (hp : s.pend = some p)
include hi hp

/-- Step 2 of R211. -/
theorem exec_of_invalid (h : (sources i).any (invalid s) = true) : exec i s = .next (latched s 2 p.cmd) := by
  cases i with
  | fld rd tag | fldc rd k => cases h
  | fst ra => exact execFst_invalid hp (any_invalid_one.1 h)
  | fadd rd ra rb | fsub rd ra rb | fmul rd ra rb | fdiv rd ra rb => exact binaryField_invalid hp (any_invalid_two.1 h)
  | finv rd rb => exact execFinv_invalid hp (any_invalid_one.1 h)
  | feq ra rb => exact execFeq_invalid hp (any_invalid_two.1 h)
  | ponc ra => exact execPonc_error hp (pt_invalid (isEven_iff.1 hi) (any_invalid_two.1 h))
  | pdbl rd ra =>
    obtain ⟨hrd, hra⟩ := Bool.and_eq_true_iff.1 hi
    exact execPdbl_error hp (isEven_iff.1 hrd) (pt_invalid (isEven_iff.1 hra) (any_invalid_two.1 h))
  | pser ra => exact execPser_error hp (pt_invalid (isEven_iff.1 hi) (any_invalid_two.1 h))
  | addr ra net => exact execAddr_error net hp (pt_invalid (isEven_iff.1 hi) (any_invalid_two.1 h))

variable (hvalid : (sources i).any (invalid s) = false)
include hvalid

/-- Step 3 of R211. -/
theorem exec_of_mismatched (h : mismatched s i = true) : exec i s = .next (latched s 3 p.cmd) := by
  cases i with
  | fld rd tag | fldc rd k | fst ra | finv rd rb => cases h
  | fadd rd ra rb => exact binaryField_of_tagsDiffer hp fadd_mismatch h
  | fsub rd ra rb => exact binaryField_of_tagsDiffer hp fsub_mismatch h
  | fmul rd ra rb => exact binaryField_of_tagsDiffer hp fmul_mismatch h
  | fdiv rd ra rb => exact binaryField_of_tagsDiffer hp fdiv_mismatch h
  | feq ra rb =>
    obtain ⟨a, b, ha, hb, htag⟩ := tagsDiffer_iff.1 h
    exact execFeq_mismatch hp ha hb htag
  | ponc ra =>
    cases htags : tagsDiffer s ra (ra + 1) with
    | true => exact execPonc_error hp (pt_of_tagsDiffer hi htags)
    | false =>
      obtain ⟨x, y, hx, hy, htag⟩ := valid_pair_of_not_tagsDiffer hvalid htags
      have hx0 : x.tag ≠ 0 := (tag_ne_zero_iff_tagNotZero hx).2 (by simpa [mismatched, htags] using h)
      exact execPonc_not_on_tag hp (pt_ok (isEven_iff.1 hi) hx hy htag) (onCurve_mismatch hx0)
  | pdbl rd ra =>
    obtain ⟨hrd, hra⟩ := Bool.and_eq_true_iff.1 hi
    exact execPdbl_error hp (isEven_iff.1 hrd) (pt_of_tagsDiffer hra h)
  | pser ra => exact execPser_error hp (pt_of_tagsDiffer hi h)
  | addr ra net => exact execAddr_error net hp (pt_of_tagsDiffer hi h)

variable (hmatched : mismatched s i = false)
include hmatched

/-- Step 4 of R211. -/
theorem exec_of_zeroDivisor (h : zeroDivisor s i = true) : exec i s = .next (latched s 4 p.cmd) := by
  cases i with
  | fdiv rd ra rb =>
    obtain ⟨a, b, ha, hb, htag⟩ := valid_pair_of_not_tagsDiffer hvalid hmatched
    exact binaryField_error hp ha hb (fdiv_zero htag (value_eq_zero_of_isZero hb h))
  | finv rd rb =>
    obtain ⟨b, hb⟩ := valid_of_any_invalid_false hvalid
    exact execFinv_zero hp hb (value_eq_zero_of_isZero hb h)
  | pdbl rd ra =>
    obtain ⟨hrd, hra⟩ := Bool.and_eq_true_iff.1 hi
    obtain ⟨x, y, hx, hy, htag⟩ := valid_pair_of_not_tagsDiffer hvalid hmatched
    exact execPdbl_no_double hp (isEven_iff.1 hrd) (pt_ok (isEven_iff.1 hra) hx hy htag)
      (doublePoint_zero htag (value_eq_zero_of_isZero hy h))
  | _ => cases h

/-- No step of R211 applies. -/
theorem exec_completes (h : zeroDivisor s i = false) : Completes s (exec i s) := by
  cases i with
  | fld rd tag => exact ⟨_, execFld_ok hp tag, rfl, rfl, rfl, rfl⟩
  | fldc rd k => exact ⟨_, execFldc_ok hp k, rfl, rfl, rfl, rfl⟩
  | fst ra =>
    obtain ⟨a, ha⟩ := valid_of_any_invalid_false hvalid
    exact ⟨_, execFst_ok hp ha, rfl, rfl, rfl, rfl⟩
  | fadd rd ra rb => exact binaryField_completes hp fadd_ok hvalid hmatched
  | fsub rd ra rb => exact binaryField_completes hp fsub_ok hvalid hmatched
  | fmul rd ra rb => exact binaryField_completes hp fmul_ok hvalid hmatched
  | fdiv rd ra rb =>
    obtain ⟨a, b, ha, hb, htag⟩ := valid_pair_of_not_tagsDiffer hvalid hmatched
    exact ⟨_, binaryField_ok hp ha hb (fdiv_ok htag (value_ne_zero_of_isZero_false hb h)), rfl, rfl, rfl, rfl⟩
  | finv rd rb =>
    obtain ⟨b, hb⟩ := valid_of_any_invalid_false hvalid
    exact ⟨_, execFinv_ok hp hb (value_ne_zero_of_isZero_false hb h), rfl, rfl, rfl, rfl⟩
  | feq ra rb =>
    obtain ⟨a, b, ha, hb, htag⟩ := valid_pair_of_not_tagsDiffer hvalid hmatched
    exact ⟨_, execFeq_ok hp ha hb htag, rfl, rfl, rfl, rfl⟩
  | ponc ra =>
    obtain ⟨htags, htagNotZero⟩ := Bool.or_eq_false_iff.1 hmatched
    obtain ⟨x, y, hx, hy, htag⟩ := valid_pair_of_not_tagsDiffer hvalid htags
    have hx0 : x.tag = 0 := not_ne_iff.1 (mt (tag_ne_zero_iff_tagNotZero hx).1 (Bool.eq_false_iff.1 htagNotZero))
    exact ⟨_, execPonc_of_pt _ hp (pt_ok (isEven_iff.1 hi) hx hy htag) (onCurve_ok hx0 (htag.symm.trans hx0)),
      rfl, rfl, rfl, rfl⟩
  | pdbl rd ra =>
    obtain ⟨hrd, hra⟩ := Bool.and_eq_true_iff.1 hi
    obtain ⟨x, y, hx, hy, htag⟩ := valid_pair_of_not_tagsDiffer hvalid hmatched
    exact ⟨_, execPdbl_ok hp (isEven_iff.1 hrd) (isEven_iff.1 hra) hx hy htag (value_ne_zero_of_isZero_false hy h), rfl, rfl, rfl, rfl⟩
  | pser ra =>
    obtain ⟨x, y, hx, hy, htag⟩ := valid_pair_of_not_tagsDiffer hvalid hmatched
    exact ⟨_, execPser_ok hp (isEven_iff.1 hi) hx hy htag, rfl, rfl, rfl, rfl⟩
  | addr ra net =>
    obtain ⟨x, y, hx, hy, htag⟩ := valid_pair_of_not_tagsDiffer hvalid hmatched
    exact ⟨_, execAddr_ok net hp (isEven_iff.1 hi) hx hy htag, rfl, rfl, rfl, rfl⟩

end

/-- A legal command ends by its first cause: none and it completes, or one of codes 2 to 4 and it latches that. -/
theorem exec_by_firstCause (hi : i.wf = true) (hp : s.pend = some p) :
    (firstCause s i = 0 ∧ Completes s (exec i s)) ∨
    ((firstCause s i = 2 ∨ firstCause s i = 3 ∨ firstCause s i = 4) ∧ exec i s = .next (latched s (firstCause s i) p.cmd)) := by
  unfold firstCause
  cases hvalid : (sources i).any (invalid s) with
  | true => exact .inr ⟨.inl rfl, exec_of_invalid hi hp hvalid⟩
  | false =>
    cases hmatched : mismatched s i with
    | true => exact .inr ⟨.inr (.inl rfl), exec_of_mismatched hi hp hvalid hmatched⟩
    | false =>
      cases hzero : zeroDivisor s i with
      | true => exact .inr ⟨.inr (.inr rfl), exec_of_zeroDivisor hi hp hvalid hmatched hzero⟩
      | false => exact .inl ⟨rfl, exec_completes hi hp hvalid hmatched hzero⟩

/-! ### The ENGINE's step (R203, R211) -/

/-- With a legal word pending, the ENGINE's step ends by the first cause at the state before it: the causes do not depend on the turns. -/
theorem step_by_firstCause (hnext : EngineNext s rest) (hp : s.pend = some p) (hd : decode p.cmd = .ok i) :
    (firstCause s i = 0 ∧ Completes s (step s)) ∨
    ((firstCause s i = 2 ∨ firstCause s i = 3 ∨ firstCause s i = 4) ∧
      step s = .next (latched { s with turns := rest } (firstCause s i) p.cmd)) := by
  rw [step_engine_next hnext hp, engineStep_decoded (s := { s with turns := rest }) hp hd]
  exact exec_by_firstCause (s := { s with turns := rest }) (decode_wf hd) hp

/-- With an illegal word pending, the ENGINE's step latches IllegalCommand (R201). -/
theorem step_illegal {e : Illegal} (hnext : EngineNext s rest) (hp : s.pend = some p) (hd : decode p.cmd = .error e) :
    step s = .next (latched { s with turns := rest } 1 p.cmd) :=
  illegalWhenExecuted_of_decode_error hd s rest p.din hnext hp

/-- Settles O31, by what the pending word decodes to and, for a legal one, by its first cause. -/
theorem firstCauseInThePriorityOrder : Obligations.FirstCauseInThePriorityOrder := by
  unfold Obligations.FirstCauseInThePriorityOrder
  intro s rest p hnext hp
  refine ⟨fun e => step_illegal hnext hp, fun i hd hne => ?_, fun i hd hzero => ?_⟩
  · rcases step_by_firstCause hnext hp hd with ⟨hzero, -⟩ | ⟨-, hstep⟩
    · exact absurd hzero hne
    · exact hstep
  · rcases step_by_firstCause hnext hp hd with ⟨-, hcompletes⟩ | ⟨hcodes, -⟩
    · exact hcompletes
    · simp [hzero] at hcodes

/-- Settles O32: the step ends as R211 says, and the one end that latches nothing leaves ERR 0. -/
theorem failedCommandChangesNothingElse : Obligations.FailedCommandChangesNothingElse := by
  unfold Obligations.FailedCommandChangesNothingElse
  intro s t rest p hnext hp herr hstep hfailed
  cases hd : decode p.cmd with
  | error e => exact ⟨1, .inl rfl, next_inj ((step_illegal hnext hp hd).symm.trans hstep)⟩
  | ok i =>
    rcases step_by_firstCause hnext hp hd with ⟨-, u, hu, hkept, -⟩ | ⟨hcodes, hlatched⟩
    · obtain rfl : t = u := next_inj (hu.symm.trans hstep)
      simp [hkept, herr] at hfailed
    · exact ⟨firstCause s i, .inr hcodes, next_inj (hlatched.symm.trans hstep)⟩

/-! ### Return from the error state (R215) -/

theorem hostWrite_ctrl (s : State) (w : Word) : s.hostWrite 0x008 w = s.writeCtrl w := by
  simp only [State.hostWrite, windowReg_ctrl]

theorem writeCtrl_clr (s : State) (hclr : w.getLsbD 0 = true) (hsrst : w.getLsbD 1 = false) : s.writeCtrl w = s.clearError := by
  rw [State.writeCtrl, hsrst, hclr]
  rfl

theorem step_clr (h : s.turns = .host (.write 0x008 w) :: rest) (hclr : w.getLsbD 0 = true) (hsrst : w.getLsbD 1 = false) :
    step s = .next ({ s with turns := rest } : State).clearError := by
  rw [step_hostWrite h rfl, hostWrite_ctrl, writeCtrl_clr _ hclr hsrst]

/-- Settles O44: the write is `clearError`, which keeps PEND, so an illegal word still raises, and leaves an idle core ready to accept. -/
theorem clrClearsTheErrorState : Obligations.ClrClearsTheErrorState := by
  unfold Obligations.ClrClearsTheErrorState
  intro s w rest hturns hclr hsrst
  refine ⟨_, step_clr hturns hclr hsrst, rfl, fun p e hp hd => ?_, fun cmd later hidle => ?_⟩
  · exact step_illegal (.inr ⟨rfl, rfl⟩) hp hd
  · rw [step_cmdWrite rfl]
    exact congrArg Host.Outcome.next (offerCommand_accepted cmd hidle rfl)

end Sys2Proof.Machine
end

section
/-! SUPPORT. CTRL.SRST as a step (70_reset_and_hazards.md R241), and the statement settled from it. -/

namespace Sys2Proof.Machine

variable {s : State} {w : Word} {rest : List Turn}

/-- SRST is looked at first, so bit 0 has no say where bit 1 is set (10_state.md R29). -/
theorem writeCtrl_srst (s : State) (hsrst : w.getLsbD 1 = true) : s.writeCtrl w = s.resetCore := by
  rw [State.writeCtrl, if_pos hsrst]

theorem step_srst (h : s.turns = .host (.write 0x008 w) :: rest) (hsrst : w.getLsbD 1 = true) :
    step s = .next ({ s with turns := rest } : State).resetCore := by
  rw [step_hostWrite h rfl, hostWrite_ctrl, writeCtrl_srst _ hsrst]

/-- Settles O51: both steps are `resetCore`, which takes nothing from the state but the environment's fields, so nothing from PEND. -/
theorem srstIsTheResetInput : Obligations.SrstIsTheResetInput := by
  unfold Obligations.SrstIsTheResetInput
  intro s s' w rest hsrst hturns hs'
  have hwrite : step s = .next ({ s with turns := rest } : State).resetCore := step_srst hturns hsrst
  have hinput : step s' = .next ({ s with turns := rest } : State).resetCore := by
    rw [hs']
    exact step_resetInput rfl
  exact ⟨hwrite.trans hinput.symm, _, hwrite, rfl⟩

end Sys2Proof.Machine
end

section
/-! SUPPORT. Decoding and encoding as inverse functions: the operands that an encoded command reads back, the fields of a word of
a row, and the statements of 30_encoding.md sections 1, 2 and 4 settled from them. -/

namespace Sys2Proof.Machine

open Sys2Proof.Terms

variable {w m v : Word}

/-! ### The word of a command read back (30_encoding.md R80, R90) -/

/-- The word of a well-formed command is of the command's row (30_encoding.md R84). -/
theorem encode_hit (i : Instr) : Laws.RowMatch.Statement i := by
  cases i with
  | fld rd tag => exact Laws.RowMatch.fld rd tag
  | fldc rd k => exact Laws.RowMatch.fldc rd k
  | fst ra => exact Laws.RowMatch.fst ra
  | fadd rd ra rb => exact Laws.RowMatch.fadd rd ra rb
  | fsub rd ra rb => exact Laws.RowMatch.fsub rd ra rb
  | fmul rd ra rb => exact Laws.RowMatch.fmul rd ra rb
  | fdiv rd ra rb => exact Laws.RowMatch.fdiv rd ra rb
  | finv rd rb => exact Laws.RowMatch.finv rd rb
  | feq ra rb => exact Laws.RowMatch.feq ra rb
  | ponc ra => exact Laws.RowMatch.ponc ra
  | pdbl rd ra => exact Laws.RowMatch.pdbl rd ra
  | pser ra => exact Laws.RowMatch.pser ra
  | addr ra net => exact Laws.RowMatch.addr ra net

/-- FLDC's index is the low two bits of imm8 (30_encoding.md R82). -/
theorem extractLsb'_zero_two (w : Word) : w.extractLsb' 0 2 = (imm8Field w).extractLsb' 0 2 :=
  (BitVec.extractLsb'_extractLsb'_of_le (by decide)).symm

@[simp] theorem constSelOf_constIndex (k : ConstSel) : constSelOf ((constIndex k).extractLsb' 0 2) = k := by
  cases k <;> rfl

@[simp] theorem networkOf?_byte (net : Network) : networkOf? net.byte = some net := by
  cases net <;> rfl

/-- The row of a command reads the command's own operands from its word. -/
theorem readOperands_encode (i : Instr) : readOperands (rowOf i).mnemonic (encode i) = .ok i := by
  cases i with
  | fldc rd k => simp [rowOf, encode, readOperands, extractLsb'_zero_two]
  | addr ra net => simp [rowOf, encode, readOperands]
  | _ => simp [rowOf, encode, readOperands]

/-- Settles O2: the word hits its own row, and that row reads the operands back. -/
theorem decodeOfEncodeIsTheCommand : Obligations.DecodeOfEncodeIsTheCommand := by
  unfold Obligations.DecodeOfEncodeIsTheCommand
  intro i hi
  rw [decode_of_hit (rowOf_mem i) (encode_hit i hi), readOperands_encode]

/-! ### A word of a row from its operands (30_encoding.md R83, R87) -/

/-- A field that the row's mask holds whole is the row's own. -/
theorem field_of_hit (h : w &&& m = v) (k n : Nat) (hm : m.extractLsb' k n = BitVec.allOnes n) :
    w.extractLsb' k n = v.extractLsb' k n := by
  rw [← h, BitVec.extractLsb'_and, hm, BitVec.and_allOnes]

/-- A register field that the row's mask holds whole is the row's own. -/
theorem regField_of_hit (h : w &&& m = v) (k : Nat) (hm : m.extractLsb' k 4 = 15#4) :
    (w.extractLsb' k 4).toFin = (v.extractLsb' k 4).toFin :=
  congrArg BitVec.toFin (field_of_hit h k 4 hm)

/-- A word is its six fields put together, once its res field is 0 (30_encoding.md R80). -/
theorem assemble_eq {op : BitVec 6} {rd ra rb : Reg} {tag : Tag} {imm8 : Byte} (hres : w.extractLsb' 8 4 = 0#4)
    (hop : opField w = op) (hrd : rdField w = rd) (hra : raField w = ra) (hrb : rbField w = rb) (htag : tagField w = tag)
    (himm : imm8Field w = imm8) : assemble op rd ra rb tag imm8 = w := by
  subst hop hrd hra hrb htag himm
  exact assemble_fields w hres

/-- A byte whose upper six bits are 0 is the index of the constant that its low two select (30_encoding.md R82). -/
theorem constIndex_constSelOf_byte :
    ∀ b : Byte, b.extractLsb' 2 6 = 0#6 → constIndex (constSelOf (b.extractLsb' 0 2)) = b := by
  decide

/-- The byte of an FLDC word is the index of the constant that the word selects. -/
theorem imm8Field_of_fldc (h : w.extractLsb' 2 6 = 0#6) : imm8Field w = constIndex (constSelOf (w.extractLsb' 0 2)) := by
  have hupper : (imm8Field w).extractLsb' 2 6 = 0#6 := (BitVec.extractLsb'_extractLsb'_of_le (by decide)).trans h
  rw [extractLsb'_zero_two, constIndex_constSelOf_byte _ hupper]

/-- What the row of ADDR reads: the point's register, and the network that the byte names (30_encoding.md R82). -/
theorem readOperands_addr {ra : Reg} {net : Network} (h : readOperands .ADDR w = .ok (.addr ra net)) :
    raField w = ra ∧ networkOf? (imm8Field w) = some net := by
  simp only [readOperands] at h
  split at h
  next net' hnet => cases h; exact ⟨rfl, hnet⟩
  next => cases h

/-- A network is named by its own byte alone (43_address_derivation.md R174). -/
theorem byte_of_networkOf? {b : Byte} {net : Network} (h : networkOf? b = some net) : b = net.byte := by
  unfold networkOf? at h
  split at h
  next hmain => cases h; exact hmain
  next =>
    split at h
    next htest => cases h; exact htest
    next => cases h

/-- A word of a row is the encoding of what the row reads from it: the fields that the row does not read are held by its mask. -/
theorem encode_of_hit {i : Instr} (hhit : w &&& (rowOf i).mask = (rowOf i).matchBits)
    (hread : readOperands (rowOf i).mnemonic w = .ok i) : encode i = w := by
  cases i with
  | fld rd tag =>
    cases hread
    simp only [rowOf] at hhit
    exact assemble_eq (field_of_hit hhit 8 4 rfl) (field_of_hit hhit 26 6 rfl) rfl (regField_of_hit hhit 18 rfl)
      (regField_of_hit hhit 14 rfl) rfl (field_of_hit hhit 0 8 rfl)
  | fldc rd k =>
    cases hread
    simp only [rowOf] at hhit
    exact assemble_eq (field_of_hit hhit 8 4 rfl) (field_of_hit hhit 26 6 rfl) rfl (regField_of_hit hhit 18 rfl)
      (regField_of_hit hhit 14 rfl) (field_of_hit hhit 12 2 rfl) (imm8Field_of_fldc (field_of_hit hhit 2 6 rfl))
  | fadd rd ra rb | fsub rd ra rb | fmul rd ra rb | fdiv rd ra rb =>
    cases hread
    simp only [rowOf] at hhit
    exact assemble_eq (field_of_hit hhit 8 4 rfl) (field_of_hit hhit 26 6 rfl) rfl rfl rfl (field_of_hit hhit 12 2 rfl)
      (field_of_hit hhit 0 8 rfl)
  | finv rd rb =>
    cases hread
    simp only [rowOf] at hhit
    exact assemble_eq (field_of_hit hhit 8 4 rfl) (field_of_hit hhit 26 6 rfl) rfl (regField_of_hit hhit 18 rfl) rfl
      (field_of_hit hhit 12 2 rfl) (field_of_hit hhit 0 8 rfl)
  | feq ra rb =>
    cases hread
    simp only [rowOf] at hhit
    exact assemble_eq (field_of_hit hhit 8 4 rfl) (field_of_hit hhit 26 6 rfl) (regField_of_hit hhit 22 rfl) rfl rfl
      (field_of_hit hhit 12 2 rfl) (field_of_hit hhit 0 8 rfl)
  | fst ra | ponc ra | pser ra =>
    cases hread
    simp only [rowOf] at hhit
    exact assemble_eq (field_of_hit hhit 8 4 rfl) (field_of_hit hhit 26 6 rfl) (regField_of_hit hhit 22 rfl) rfl
      (regField_of_hit hhit 14 rfl) (field_of_hit hhit 12 2 rfl) (field_of_hit hhit 0 8 rfl)
  | pdbl rd ra =>
    cases hread
    simp only [rowOf] at hhit
    exact assemble_eq (field_of_hit hhit 8 4 rfl) (field_of_hit hhit 26 6 rfl) rfl rfl (regField_of_hit hhit 14 rfl)
      (field_of_hit hhit 12 2 rfl) (field_of_hit hhit 0 8 rfl)
  | addr ra net =>
    obtain ⟨hra, hnet⟩ := readOperands_addr hread
    simp only [rowOf] at hhit
    exact assemble_eq (field_of_hit hhit 8 4 rfl) (field_of_hit hhit 26 6 rfl) (regField_of_hit hhit 22 rfl) hra
      (regField_of_hit hhit 14 rfl) (field_of_hit hhit 12 2 rfl) (byte_of_networkOf? hnet)

/-- Settles O3: a decoded word is of its command's row, which leaves no bit of it free, and the decoder answers well-formed commands. -/
theorem encodeOfDecodeIsTheWord : Obligations.EncodeOfDecodeIsTheWord := by
  unfold Obligations.EncodeOfDecodeIsTheWord
  intro w i hd
  obtain ⟨hhit, hread⟩ := rowOf_hit hd
  exact ⟨encode_of_hit hhit hread, decode_wf hd⟩

/-! ### The rows against the decoder (30_encoding.md R84) -/

/-- ADDR's constraint is all that R84 asks beyond the row: every other row reads its operands from any word. -/
theorem readOperands_ok {mn : Mnemonic} (h : mn = .ADDR → w.extractLsb' 0 8 = 0x00#8 ∨ w.extractLsb' 0 8 = 0x6F#8) :
    ∃ i, readOperands mn w = .ok i := by
  cases mn with
  | ADDR =>
    rcases h rfl with hbyte | hbyte
    · exact ⟨.addr (raField w) .mainnet, by simp only [readOperands, imm8Field, hbyte]; rfl⟩
    · exact ⟨.addr (raField w) .testnet, by simp only [readOperands, imm8Field, hbyte]; rfl⟩
  | _ => exact ⟨_, rfl⟩

/-- The row of ADDR is the one with the match of R84's extra constraint. -/
theorem matchBits_eq_addr : ∀ r ∈ opcodeTable, r.mnemonic = .ADDR → r.matchBits = 0x80000000#32 := by decide

/-- A word of one of R84's rows, with ADDR's constraint, decodes. -/
theorem decode_of_encodesACommand (h : EncodesACommand w) : ∃ i, decode w = .ok i := by
  obtain ⟨row, hrow, hhit, haddr⟩ := h
  rw [rowsOfR84_eq] at hrow
  obtain ⟨r, hr, rfl⟩ := List.mem_map.1 hrow
  rw [decode_of_hit hr hhit]
  exact readOperands_ok fun hmn => haddr (matchBits_eq_addr r hr hmn)

/-- Settles O4: the statement's rows are the decoder's, and only ADDR's operands can fail to read. -/
theorem wordIsACommandIffARowMatches : Obligations.WordIsACommandIffARowMatches := by
  unfold Obligations.WordIsACommandIffARowMatches
  exact fun w => ⟨fun ⟨_, hd⟩ => encodesACommand_of_decode hd, decode_of_encodesACommand⟩

/-- Settles O1: each word is the encoding of the command that the table gives it, read back. -/
theorem decodesTheSyntaxTableWords : Obligations.DecodesTheSyntaxTableWords := by
  unfold Obligations.DecodesTheSyntaxTableWords
  have hread : ∀ i : Instr, i.wf = true → decode (encode i) = .ok i := decodeOfEncodeIsTheCommand
  exact ⟨hread (.fld 2 1) rfl, hread (.fldc 0 .gx) rfl, hread (.fst 5) rfl, hread (.fadd 3 1 2) rfl, hread (.fsub 3 1 2) rfl,
    hread (.fmul 3 1 2) rfl, hread (.fdiv 3 1 2) rfl, hread (.finv 3 2) rfl, hread (.feq 1 2) rfl, hread (.ponc 0) rfl,
    hread (.pdbl 2 0) rfl, hread (.pser 2) rfl, hread (.addr 0 .mainnet) rfl⟩

end Sys2Proof.Machine
end

section
/-! SUPPORT. One step of the whole machine by what it is: the ENGINE's, a CMD write taken or dropped, a clear, a reset, a DIN write,
or a step that the core does not notice; and the statements of single steps, and of runs up to the ENGINE's turn, settled from it. -/

namespace Sys2Proof.Machine

open Sys2Proof.Terms

variable {s t u : State} {p : Pending} {i : Instr} {turn : Turn} {off : Offset} {w : Word} {rest : List Turn}

/-! ### The ENGINE's step (10_state.md R32, 60_exceptions.md R222) -/

/-- Settles O6: with a command pending the ENGINE runs, and it executes what the word decodes to. -/
theorem stepRunsTheDecodedCommand : Obligations.StepRunsTheDecodedCommand := by
  unfold Obligations.StepRunsTheDecodedCommand
  intro s rest p i hnext hp hd
  rw [step_engine_next hnext hp]
  exact engineStep_decoded (p := p) hp hd

theorem engineStep_idle (h : s.pend = none) : engineStep s = .fault .engineIdle := by
  simp only [engineStep, h]

/-- Settles O7: without a turn the step is the ENGINE's, which has none with PEND empty; nor has any meaning. -/
theorem idleEngineHasNoStep : Obligations.IdleEngineHasNoStep := by
  unfold Obligations.IdleEngineHasNoStep
  intro s hidle
  exact ⟨fun hturns => (step_no_turn hturns).trans (engineStep_idle hidle), fun i => exec_idle i s hidle⟩

/-- An ENGINE turn with PEND empty passes (log 3). -/
theorem step_engine_idle (hturns : s.turns = .engine :: rest) (hidle : s.pend = none) :
    step s = .next { s with turns := rest } := by
  simp only [step_turn hturns, State.takeTurn, State.busy, hidle, Option.isSome_none, Bool.false_eq_true, if_false]

/-- Settles O8: the turn is taken off the list, and the ENGINE does nothing. -/
theorem idleEngineTurnKeepsEveryState : Obligations.IdleEngineTurnKeepsEveryState := by
  unfold Obligations.IdleEngineTurnKeepsEveryState
  exact fun s rest hidle hturns => step_engine_idle hturns hidle

/-- Every command, failing or not, leaves PEND empty (10_state.md R32). -/
theorem exec_empties_pend (h : exec i s = .next t) : t.pend = none := by
  rcases exec_next_cases h with ⟨c, cmd, rfl⟩ | ⟨u, -, rfl⟩
  · rfl
  · rfl

/-- The ENGINE's step leaves PEND empty, and DIN, DROP and the environment's fields as they are (10_state.md R32, R33). -/
theorem engineStep_frame (h : engineStep s = .next t) :
    t.pend = none ∧ t.din = s.din ∧ t.drop = s.drop ∧ t.turns = s.turns ∧ t.hostReads = s.hostReads := by
  obtain ⟨p, hp, ⟨i, hd, hexec⟩ | ⟨-, rfl⟩⟩ := engineStep_cases h
  · have hframe : KeepsAllButDestinations i s t := commandsChangeOnlyTheirDestinations i s t hexec
    obtain ⟨-, -, -, -, -, hkept⟩ := hframe
    exact ⟨exec_empties_pend hexec, hkept⟩
  · exact ⟨rfl, rfl, rfl, rfl, rfl⟩

/-- Settles O9: whatever is pending, the ENGINE has a step, and that step has this frame. -/
theorem engineStepCompletesThePendingCommand : Obligations.EngineStepCompletesThePendingCommand := by
  unfold Obligations.EngineStepCompletesThePendingCommand
  intro s rest p hnext hp
  obtain ⟨t, ht⟩ := engineStep_next (s := { s with turns := rest }) hp
  exact ⟨t, (step_engine_next hnext hp).trans ht, engineStep_frame ht⟩

/-- Settles O10: the write is accepted with its snapshot of DIN, and the word decodes to the command it encodes. -/
theorem cmdWriteThenEngineTurnRunsTheCommand : Obligations.CmdWriteThenEngineTurnRunsTheCommand := by
  unfold Obligations.CmdWriteThenEngineTurnRunsTheCommand
  intro s i rest hi hidle herr hturns
  have haccept := offerCommand_accepted (s := { s with turns := .engine :: rest }) (encode i) hidle herr
  refine ⟨_, (step_cmdWrite hturns).trans (congrArg Host.Outcome.next haccept), ?_⟩
  exact stepRunsTheDecodedCommand _ rest ⟨encode i, s.din⟩ i (.inl rfl) rfl (decodeOfEncodeIsTheCommand i hi)

/-! ### CTRL (10_state.md R29) -/

theorem writeCtrl_ignored (s : State) (hclr : w.getLsbD 0 = false) (hsrst : w.getLsbD 1 = false) : s.writeCtrl w = s := by
  simp only [State.writeCtrl, hsrst, hclr, Bool.false_eq_true, if_false]

/-- Settles O45: with bits 0 and 1 clear the write to CTRL is ignored. -/
theorem otherCtrlBitsAreIgnored : Obligations.OtherCtrlBitsAreIgnored := by
  unfold Obligations.OtherCtrlBitsAreIgnored
  intro s w rest hturns hclr hsrst
  rw [step_hostWrite hturns rfl, hostWrite_ctrl, writeCtrl_ignored _ hclr hsrst]

/-! ### Reads (20_memory.md R60, R61) -/

/-- What the window reads does not depend on the environment's fields. -/
theorem hostRead_environment (s : State) (off : Offset) (rest : List Turn) (reads : List Word) :
    ({ s with turns := rest, hostReads := reads } : State).hostRead off = s.hostRead off := rfl

/-- Settles O46: the read is a step that touches the environment's fields alone. -/
theorem hostReadsHaveNoSideEffect : Obligations.HostReadsHaveNoSideEffect := by
  unfold Obligations.HostReadsHaveNoSideEffect
  intro s off rest haligned hturns
  exact ⟨_, (step_host hturns).trans (hostStep_read haligned), rfl, fun off' => hostRead_environment s off' rest _⟩

/-! ### Everything one step can do -/

/-- The next states of a state, by the step that leads there: the first turn, if any, is off the list (20_memory.md R65). -/
inductive NextState (s : State) : State → Prop where
  /-- The ENGINE executes the pending word. -/
  | engine (p : Pending) (t : State) (hp : s.pend = some p) (h : engineStep { s with turns := s.turns.tail } = .next t) :
      NextState s t
  /-- A turn that passes, a read, or a write that is ignored. -/
  | unnoticed (reads : List Word) : NextState s { s with turns := s.turns.tail, hostReads := reads }
  /-- A CMD write to an idle core without an error. -/
  | accepted (w : Word) (hidle : s.pend = none) (herr : s.err = false) :
      NextState s { s with turns := s.turns.tail, pend := some ⟨w, s.din⟩ }
  /-- A CMD write to a busy core, or to one with an error. -/
  | dropped (hbusy : s.pend ≠ none ∨ s.err = true) : NextState s { s with turns := s.turns.tail, drop := true }
  /-- A CTRL write with CLR and without SRST. -/
  | cleared (turn : Turn) (hfirst : turn ∈ s.turns.head?) (hclear : clears turn = true) :
      NextState s ({ s with turns := s.turns.tail } : State).clearError
  /-- The reset input, or a CTRL write with SRST. -/
  | reset (turn : Turn) (hfirst : turn ∈ s.turns.head?) (hreset : resets turn = true) :
      NextState s ({ s with turns := s.turns.tail } : State).resetCore
  /-- A write to a word of DIN. -/
  | dinWritten (turn : Turn) (d : Raw256) (hfirst : turn ∈ s.turns.head?) (hdin : writesDin turn = true) :
      NextState s { s with turns := s.turns.tail, din := d }

theorem nextState_of_offer (s : State) (w : Word) :
    NextState s (({ s with turns := s.turns.tail } : State).offerCommand w) := by
  by_cases hbusy : s.pend ≠ none ∨ s.err = true
  · rw [offerCommand_dropped (s := { s with turns := s.turns.tail }) w hbusy]
    exact .dropped hbusy
  · obtain ⟨hidle, herr⟩ : s.pend = none ∧ s.err = false := by simpa using hbusy
    rw [offerCommand_accepted (s := { s with turns := s.turns.tail }) w hidle herr]
    exact .accepted w hidle herr

theorem nextState_of_ctrl (hfirst : .host (.write off w) ∈ s.turns.head?) (hoff : off.toNat = 0x008) :
    NextState s (({ s with turns := s.turns.tail } : State).writeCtrl w) := by
  cases hsrst : w.getLsbD 1 with
  | true =>
    rw [writeCtrl_srst _ hsrst]
    exact .reset _ hfirst (by simp [resets, hoff, hsrst])
  | false =>
    cases hclr : w.getLsbD 0 with
    | true =>
      rw [writeCtrl_clr _ hclr hsrst]
      exact .cleared _ hfirst (by simp [clears, hoff, hclr])
    | false =>
      rw [writeCtrl_ignored _ hclr hsrst]
      exact .unnoticed s.hostReads

theorem nextState_of_write (hfirst : .host (.write off w) ∈ s.turns.head?) :
    NextState s (({ s with turns := s.turns.tail } : State).hostWrite off w) := by
  rcases hostWrite_cases { s with turns := s.turns.tail } off w with ⟨-, h⟩ | ⟨hoff, h⟩ | ⟨d, hlo, hhi, h⟩ | h
  · rw [h]
    exact nextState_of_offer s w
  · rw [h]
    exact nextState_of_ctrl hfirst hoff
  · rw [h]
    exact .dinWritten _ d hfirst (by simp [writesDin, hlo, hhi])
  · rw [h]
    exact .unnoticed s.hostReads

/-- Every step leads to one of the next states. -/
theorem nextState_of_step (h : step s = .next t) : NextState s t := by
  rcases step_cases h with ⟨hturns, hengine⟩ | ⟨turn, rest, hturns, hturn⟩
  · obtain ⟨p, hp, -⟩ := engineStep_cases hengine
    refine .engine p t hp ?_
    rw [step_engine_next (.inr ⟨hturns, rfl⟩) hp] at h
    rw [hturns]
    exact h
  · have hfirst : turn ∈ s.turns.head? := by rw [hturns]; rfl
    obtain rfl : s.turns.tail = rest := by rw [hturns]; rfl
    rcases hturn with ⟨-, hp, hengine⟩ | ⟨-, -, rfl⟩ | ⟨a, rfl, hhost⟩ | ⟨rfl, rfl⟩
    · obtain ⟨p, hp⟩ := Option.ne_none_iff_exists'.1 hp
      exact .engine p t hp hengine
    · exact .unnoticed s.hostReads
    · rcases hostStep_cases hhost with ⟨off, -, -, rfl⟩ | ⟨off, w, rfl, -, rfl⟩
      · exact .unnoticed _
      · exact nextState_of_write hfirst
    · exact .reset _ hfirst rfl

/-! ### Frames of one step -/

/-- A kind of turn that is excluded did not lead here. -/
theorem not_of_firstTurnNot {q : Turn → Bool} (h : firstTurnNot q s) (hfirst : turn ∈ s.turns.head?) : ¬ q turn = true :=
  Bool.eq_false_iff.1 (h turn hfirst)

/-- Settles O55: of the next states only a DIN write's and a reset's have another DIN. -/
theorem onlyTheHostChangesDin : Obligations.OnlyTheHostChangesDin := by
  unfold Obligations.OnlyTheHostChangesDin
  intro s t hstep hnodin hnoreset
  cases nextState_of_step hstep with
  | engine p t hp hengine =>
    obtain ⟨-, hdin, -⟩ := engineStep_frame hengine
    exact hdin
  | reset turn hfirst hreset => exact absurd hreset (not_of_firstTurnNot hnoreset hfirst)
  | dinWritten turn d hfirst hdin => exact absurd hdin (not_of_firstTurnNot hnodin hfirst)
  | _ => rfl

/-- Settles O56: no next state but a clear's and a reset's takes DROP away. -/
theorem dropIsSticky : Obligations.DropIsSticky := by
  unfold Obligations.DropIsSticky
  intro s t hstep hdrop hnoclear hnoreset
  cases nextState_of_step hstep with
  | engine p t hp hengine =>
    obtain ⟨-, -, hkept, -⟩ := engineStep_frame hengine
    exact hkept.trans hdrop
  | cleared turn hfirst hclear => exact absurd hclear (not_of_firstTurnNot hnoclear hfirst)
  | reset turn hfirst hreset => exact absurd hreset (not_of_firstTurnNot hnoreset hfirst)
  | dropped hbusy => rfl
  | _ => exact hdrop

/-- The ENGINE's step changes a flag only where the pending word is the command that writes it (10_state.md R27). -/
theorem engineStep_flags (h : engineStep s = .next t) (hp : s.pend = some p) :
    (t.eq ≠ s.eq → ∃ ra rb, decode p.cmd = .ok (.feq ra rb)) ∧ (t.onc ≠ s.onc → ∃ ra, decode p.cmd = .ok (.ponc ra)) := by
  obtain ⟨p', hp', ⟨i, hd, hexec⟩ | ⟨-, rfl⟩⟩ := engineStep_cases h
  · obtain rfl : p' = p := Option.some_inj.1 (hp'.symm.trans hp)
    have hframe : KeepsAllButDestinations i s t := commandsChangeOnlyTheirDestinations i s t hexec
    obtain ⟨-, -, heq, honc, -⟩ := hframe
    refine ⟨fun hne => ?_, fun hne => ?_⟩
    · obtain ⟨ra, rb, rfl⟩ := not_not.1 (mt heq hne)
      exact ⟨ra, rb, hd⟩
    · obtain ⟨ra, rfl⟩ := not_not.1 (mt honc hne)
      exact ⟨ra, hd⟩
  · exact ⟨fun hne => absurd rfl hne, fun hne => absurd rfl hne⟩

/-- Settles O33: but for a reset only the ENGINE's step writes the flags. -/
theorem flagsChangeOnlyByFeqAndPonc : Obligations.FlagsChangeOnlyByFeqAndPonc := by
  unfold Obligations.FlagsChangeOnlyByFeqAndPonc
  intro s t hstep hnoreset
  cases nextState_of_step hstep with
  | engine p t hp hengine =>
    obtain ⟨heq, honc⟩ := engineStep_flags hengine hp
    exact ⟨fun hne => ⟨p, (heq hne).imp fun ra h => h.imp fun rb hd => ⟨hp, hd⟩⟩,
      fun hne => ⟨p, (honc hne).imp fun ra hd => ⟨hp, hd⟩⟩⟩
  | reset turn hfirst hreset => exact absurd hreset (not_of_firstTurnNot hnoreset hfirst)
  | _ => exact ⟨fun hne => absurd rfl hne, fun hne => absurd rfl hne⟩

theorem keepsResults_refl (s : State) : keepsResults s s := ⟨rfl, rfl, rfl, rfl, rfl, rfl, rfl, rfl, rfl, rfl, rfl⟩

/-- Settles O34: with an error and an idle core no next state is the ENGINE's or an accepted write's, and the others keep the
results. -/
theorem latchedErrorStopsTheSequence : Obligations.LatchedErrorStopsTheSequence := by
  unfold Obligations.LatchedErrorStopsTheSequence
  intro s t herr hidle hstep hnoreset hnoclear
  refine ⟨?_, fun w rest hturns => ?_⟩
  · cases nextState_of_step hstep with
    | engine p t hp hengine => simp [hidle] at hp
    | accepted w hidle hnoerr => simp [herr] at hnoerr
    | cleared turn hfirst hclear => exact absurd hclear (not_of_firstTurnNot hnoclear hfirst)
    | reset turn hfirst hreset => exact absurd hreset (not_of_firstTurnNot hnoreset hfirst)
    | _ => exact keepsResults_refl s
  · have hdrop := offerCommand_dropped (s := { s with turns := rest }) w (.inr herr)
    exact next_inj ((step_cmdWrite hturns).symm.trans hstep) |>.trans hdrop

/-! ### Waiting for the ENGINE (70_reset_and_hazards.md R251) -/

/-- Every step takes the first turn off the list, and no other. -/
theorem step_turns (h : step s = .next t) : t.turns = s.turns.tail := by
  cases nextState_of_step h with
  | engine p t hp hengine =>
    obtain ⟨-, -, -, hturns, -⟩ := engineStep_frame hengine
    exact hturns
  | _ => rfl

/-- A legal turn has a step at every state (20_memory.md R51; log 3 for an idle ENGINE's). -/
theorem step_of_legalTurn (hturns : s.turns = turn :: rest) (hlegal : legalTurn turn = true) :
    ∃ t, step s = .next t ∧ t.turns = rest := by
  have hstep : ∃ t, step s = .next t := by
    cases turn with
    | engine =>
      cases hp : s.pend with
      | none => exact ⟨_, step_engine_idle hturns hp⟩
      | some p =>
        rw [step_engine_next (.inl hturns) hp]
        exact engineStep_next hp
    | host a =>
      rw [step_host hturns]
      exact hostStep_inContract _ hlegal
    | resetInput => exact ⟨_, step_resetInput hturns⟩
  obtain ⟨t, ht⟩ := hstep
  exact ⟨t, ht, (step_turns ht).trans (by rw [hturns]; rfl)⟩

/-- The ENGINE's own turn leaves PEND empty, by executing what is pending or by passing. -/
theorem step_engine_empties_pend (hturns : s.turns = .engine :: rest) :
    ∃ t, step s = .next t ∧ t.pend = none ∧ t.turns = rest := by
  cases hp : s.pend with
  | none => exact ⟨_, step_engine_idle hturns hp, hp, rfl⟩
  | some p =>
    obtain ⟨t, ht, hpend, -, -, hrest, -⟩ := engineStepCompletesThePendingCommand s rest p (.inl hturns) hp
    exact ⟨t, ht, hpend, hrest⟩

theorem run_succ (k : Nat) (h : step s = .next t) : Host.Core.run core (k + 1) s = Host.Core.run core k t := by
  have hcore : core.step s = .next t := h
  simp only [Host.Core.run, hcore]

/-- Settles O11, by induction on the turns before the ENGINE's. -/
theorem engineTurnEndsEveryWait : Obligations.EngineTurnEndsEveryWait := by
  unfold Obligations.EngineTurnEndsEveryWait
  intro s pre rest hturns hlegal
  induction pre generalizing s with
  | nil =>
    obtain ⟨t, hstep, ht⟩ := step_engine_empties_pend hturns
    exact ⟨t, run_succ 0 hstep, ht⟩
  | cons turn pre ih =>
    obtain ⟨hturn, hpre⟩ := List.forall_mem_cons.1 hlegal
    obtain ⟨t, hstep, ht⟩ := step_of_legalTurn hturns hturn
    rw [List.length_cons, run_succ _ hstep]
    exact ih t ht hpre

end Sys2Proof.Machine
end

section
/-! SUPPORT. The words that the host window reads (10_state.md R28, 20_memory.md R54), and the statements about them settled from
their equations. -/

namespace Sys2Proof.Machine

open Sys2Proof.Terms

variable {off : Offset}

/-! ### Reads, one equation per register -/

theorem hostRead_status (s : State) : s.hostRead 0x004 = s.statusWord := by
  simp only [State.hostRead, windowReg_status]

theorem hostRead_errinfo (s : State) : s.hostRead 0x00C = s.errinfo := by
  simp only [State.hostRead, windowReg_errinfo]

theorem hostRead_dtag (s : State) : s.hostRead 0x010 = s.dtag.setWidth 32 := by
  simp only [State.hostRead, windowReg_dtag]

theorem hostRead_din (s : State) {k : Nat} (hk : k ≤ 7) : s.hostRead (BitVec.ofNat 12 (0x020 + 4 * k)) = wordOf s.din k := by
  simp only [State.hostRead, windowReg_din hk]

theorem hostRead_dout (s : State) {k : Nat} (hk : k ≤ 7) : s.hostRead (BitVec.ofNat 12 (0x040 + 4 * k)) = wordOf s.dout k := by
  simp only [State.hostRead, windowReg_dout hk]

/-- Settles O36: each read is its register, and a word of a value is a quotient of it. -/
theorem dataRegistersReadAtTheirOffsets : Obligations.DataRegistersReadAtTheirOffsets := by
  unfold Obligations.DataRegistersReadAtTheirOffsets
  intro s
  refine ⟨hostRead_errinfo s, ?_, fun k hk => ⟨?_, ?_⟩⟩
  · rw [hostRead_dtag, BitVec.toNat_setWidth_of_le (by decide)]
  · rw [hostRead_din s hk, wordOf_toNat]
  · rw [hostRead_dout s hk, wordOf_toNat]

/-- Settles O39: the write replaces one word of DIN, and DIN's words are read from it. -/
theorem dinWordsWriteAndReadBack : Obligations.DinWordsWriteAndReadBack := by
  unfold Obligations.DinWordsWriteAndReadBack
  intro s k w rest hk hturns
  refine ⟨_, setWord s.din k w, ?_, rfl, fun j hj => ?_⟩
  · rw [step_hostWrite hturns (dinOffset_aligned k), hostWrite_din _ w hk]
    rfl
  · rw [hostRead_din _ hj, hostRead_din s hj, wordOf_setWord s.din j k w hj hk]

/-! ### STATUS (10_state.md R28) -/

/-- A flag put below a vector is its bit 0. -/
theorem getLsbD_append_bit_zero {n : Nat} (x : BitVec n) (b : Bool) : (x ++ bit b).getLsbD 0 = b := by
  rw [BitVec.getLsbD_append, if_pos Nat.one_pos, bit]
  exact BitVec.getLsbD_ofBool b 0

/-- A flag put below a vector moves the vector's bits up by one. -/
theorem getLsbD_append_bit_succ {n : Nat} (x : BitVec n) (b : Bool) (j : Nat) :
    (x ++ bit b).getLsbD (j + 1) = x.getLsbD j := by
  rw [BitVec.getLsbD_append, if_neg (by omega), Nat.add_sub_cancel]

/-- The STATUS word is BUSY below the bits that PEND has no part in. -/
def State.statusUpper (s : State) : BitVec 31 :=
  0#10 ++ s.outlen ++ 0#4 ++ s.errcause ++ 0#3 ++ bit s.onc ++ bit s.eq ++ bit s.drop ++ bit s.err

theorem statusWord_eq (s : State) : s.statusWord = s.statusUpper ++ bit s.busy := rfl

/-- Settles O35: STATUS is its fields put together, so each is found at its place. -/
theorem statusReadsItsFields : Obligations.StatusReadsItsFields := by
  unfold Obligations.StatusReadsItsFields
  intro s
  rw [hostRead_status, State.statusWord]
  refine ⟨?_, ?_, ?_, ?_, ?_, ?_, ?_, ?_, ?_, ?_⟩
  · rw [getLsbD_append_bit_zero, State.busy]
  · rw [getLsbD_append_bit_succ, getLsbD_append_bit_zero]
  · iterate 2 rw [getLsbD_append_bit_succ]
    rw [getLsbD_append_bit_zero]
  · iterate 3 rw [getLsbD_append_bit_succ]
    rw [getLsbD_append_bit_zero]
  · iterate 4 rw [getLsbD_append_bit_succ]
    rw [getLsbD_append_bit_zero]
  · iterate 5 rw [BitVec.extractLsb'_append_eq_of_le (by decide)]
    exact BitVec.extractLsb'_append_eq_right
  · iterate 6 rw [BitVec.extractLsb'_append_eq_of_le (by decide)]
    exact BitVec.extractLsb'_append_eq_right
  · iterate 7 rw [BitVec.extractLsb'_append_eq_of_le (by decide)]
    exact BitVec.extractLsb'_append_eq_right
  · iterate 8 rw [BitVec.extractLsb'_append_eq_of_le (by decide)]
    exact BitVec.extractLsb'_append_eq_right
  · iterate 9 rw [BitVec.extractLsb'_append_eq_of_le (by decide)]
    exact BitVec.extractLsb'_eq_self

/-- Settles O47: of the registers STATUS alone looks at PEND, for its bit 0. -/
theorem busyReadsShowTheStateBefore : Obligations.BusyReadsShowTheStateBefore := by
  unfold Obligations.BusyReadsShowTheStateBefore
  intro s off _
  refine ⟨fun hoff => ?_, fun j hj => ?_⟩
  · have hfits := windowReg_fits off
    unfold State.hostRead
    cases hreg : windowReg off with
    | status => rw [hreg] at hfits; exact absurd hfits hoff
    | _ => rfl
  · obtain ⟨j, rfl⟩ := Nat.exists_eq_succ_of_ne_zero hj.ne'
    simp only [hostRead_status, statusWord_eq, getLsbD_append_bit_succ]
    rfl

/-! ### Words and values (20_memory.md R54) -/

/-- The first n + 1 words of a value are the first n and one more. -/
theorem quotient_step (v : Nat) {n : Nat} (hn : n < 8) :
    v / 2 ^ (256 - 32 * (n + 1)) = v / 2 ^ (256 - 32 * n) * 2 ^ 32 + v / 2 ^ (224 - 32 * n) % 2 ^ 32 := by
  have hexp : 256 - 32 * n = 224 - 32 * n + 32 := by omega
  have hexp' : 256 - 32 * (n + 1) = 224 - 32 * n := by omega
  rw [hexp, hexp', pow_add, ← Nat.div_div_eq_div_mul, Nat.div_add_mod']

/-- STOREFE's fold over the first n words is the value above the others. -/
theorem valueOfWords_wordOf (v : Raw256) {n : Nat} (hn : n ≤ 8) :
    valueOfWords ((List.range n).map fun k => wordOf v k) = v.toNat / 2 ^ (256 - 32 * n) := by
  induction n with
  | zero => exact (Nat.div_eq_of_lt v.isLt).symm
  | succ n ih =>
    have hprev := ih (by omega)
    simp only [valueOfWords] at hprev ⊢
    rw [List.range_succ, List.map_append, List.foldl_append, hprev, quotient_step v.toNat (by omega), ← wordOf_toNat]
    rfl

/-- The weighted sum of the first n words is the value with the others 0. -/
theorem sum_wordOf (v : Raw256) {n : Nat} (hn : n ≤ 8) :
    ((List.range n).map fun k => (wordOf v k).toNat * 2 ^ (224 - 32 * k)).sum
      = v.toNat / 2 ^ (256 - 32 * n) * 2 ^ (256 - 32 * n) := by
  induction n with
  | zero => rw [Nat.div_eq_of_lt v.isLt]; simp
  | succ n ih =>
    have hweight : 2 ^ (256 - 32 * n) = 2 ^ 32 * 2 ^ (224 - 32 * n) := by rw [← pow_add]; congr 1; omega
    have hexp : 256 - 32 * (n + 1) = 224 - 32 * n := by omega
    rw [List.range_succ, List.map_append, List.sum_append, ih (by omega), quotient_step v.toNat (by omega), ← wordOf_toNat,
      List.map_singleton, List.sum_singleton, hexp, add_mul, mul_assoc, ← hweight]

/-- Settles O40: over all eight words the fold and the sum are the whole value. -/
theorem wordsInOffsetOrderGiveTheValue : Obligations.WordsInOffsetOrderGiveTheValue := by
  unfold Obligations.WordsInOffsetOrderGiveTheValue
  intro s
  have hread : ∀ k ∈ List.range 8, s.hostRead (BitVec.ofNat 12 (0x040 + 4 * k)) = wordOf s.dout k :=
    fun k hk => hostRead_dout s (Nat.le_of_lt_succ (List.mem_range.1 hk))
  constructor
  · rw [List.map_congr_left fun k hk => by rw [hread k hk], sum_wordOf s.dout le_rfl, pow_zero, Nat.div_one, mul_one]
  · rw [List.map_congr_left hread, valueOfWords_wordOf s.dout le_rfl, pow_zero, Nat.div_one]

/-! ### The window's place (20_memory.md R50) -/

/-- Settles O49: an address is in the window when its distance from BASE is below 4096, and that distance is its offset. -/
theorem windowStandsAtBase : Obligations.WindowStandsAtBase := by
  unfold Obligations.WindowStandsAtBase
  refine ⟨Nat.mul_mod_right 4096 Config.basePage, fun off => ?_, fun addr haddr => ?_⟩
  · have hoff := off.isLt
    rw [offsetOfAddress, if_pos ⟨by omega, by omega⟩, Nat.add_sub_cancel_left, BitVec.ofNat_toNat, BitVec.setWidth_eq]
  · rw [offsetOfAddress, if_neg (by omega)]

end Sys2Proof.Machine
end

section
/-! SUPPORT. The safe states, kept by every step and so by every execution from reset, and the statements of the invariants settled
from that. -/

namespace Sys2Proof.Machine

open Sys2Proof.Terms

variable {s t u : State} {p : Pending} {i : Instr}

/-- Settles O52: the reset state has no error, an empty OUT and DOUT 0. -/
theorem resetStateIsSafe : Obligations.ResetStateIsSafe := by
  unfold Obligations.ResetStateIsSafe
  have herr : State.reset.errorFieldsOk = true := rfl
  have hout : State.reset.outOk = true := by decide
  have hdout : State.reset.doutOk = true := by decide
  exact ⟨⟨herr, hout, hdout⟩, fun hlatched => by cases hlatched⟩

/-! ### The error fields (10_state.md R28, R30, 60_exceptions.md R216) -/

theorem errorFieldsOk_of_err (h : s.err = true) :
    s.errorFieldsOk = true ↔ producedCode s.errcause = true ∧ s.pend = none := by
  simp [State.errorFieldsOk, h]

theorem errorFieldsOk_of_no_err (h : s.err = false) : s.errorFieldsOk = true ↔ s.errcause = 0 ∧ s.errinfo = 0 := by
  simp [State.errorFieldsOk, h]

/-- A safe state with a command pending has no error latched. -/
theorem no_err_of_pending (hs : s.errorFieldsOk = true) (hp : s.pend = some p) : s.err = false := by
  by_contra herr
  have hidle := ((errorFieldsOk_of_err (Bool.eq_true_of_not_eq_false herr)).1 hs).2
  simp [hp] at hidle

/-- With no error latched the error fields are in order whatever is pending. -/
theorem errorFieldsOk_congr (hs : s.errorFieldsOk = true) (hnoerr : s.err = false) (herr : t.err = s.err)
    (hcause : t.errcause = s.errcause) (hinfo : t.errinfo = s.errinfo) : t.errorFieldsOk = true := by
  rw [errorFieldsOk_of_no_err (herr.trans hnoerr), hcause, hinfo]
  exact (errorFieldsOk_of_no_err hnoerr).1 hs

theorem producedCode_code (c : Cause) : producedCode c.code = true := by
  cases c <;> rfl

/-- An error completion latches one of the four causes and empties PEND, whatever the fields were. -/
theorem errorFieldsOk_errorCompletion (s : State) (c : Cause) (cmd : Word) : (s.errorCompletion c cmd).errorFieldsOk = true :=
  (errorFieldsOk_of_err rfl).2 ⟨producedCode_code c, rfl⟩

/-- No command's own update touches the error fields (60_exceptions.md R214). -/
theorem errorFields_of_effect (h : Effect s u i) : u.err = s.err ∧ u.errcause = s.errcause ∧ u.errinfo = s.errinfo := by
  cases i with
  | fst ra =>
    obtain ⟨e, -, rfl⟩ := h
    exact ⟨rfl, rfl, rfl⟩
  | pdbl _ _ | pser _ | addr _ _ =>
    obtain ⟨x, y, rfl⟩ := h
    exact ⟨rfl, rfl, rfl⟩
  | _ =>
    obtain ⟨v, rfl⟩ := h
    exact ⟨rfl, rfl, rfl⟩

/-! ### OUT and DOUT (10_state.md R34, R35) -/

/-- Byte 0 of the SEC bytes is 0x02 or 0x03 (42_point_serializer.md R162). -/
theorem outByte_zero_secBytes (x y : Elem) :
    outByte (outOf (secBytes x y)) 0 = 0x02 ∨ outByte (outOf (secBytes x y)) 0 = 0x03 := by
  rw [outByte_eq_getD, outOf_secBytes_toList, secOf, List.getD_cons_zero]
  exact ite_eq_or_eq _ _ _

theorem outOk_writeOut_secBytes (s : State) (x y : Elem) : (s.writeOut (secBytes x y)).outOk = true := by
  have hlen : (s.writeOut (secBytes x y)).outlen = 33 := by rw [writeOut_secBytes]
  have hfirst := outByte_zero_secBytes x y
  simp only [State.outOk, hlen, writeOut_out, Bool.or_eq_true, Bool.and_eq_true, beq_iff_eq]
  exact .inr ⟨trivial, hfirst⟩

/-- Byte 0 of an address payload is its network byte (43_address_derivation.md R172). -/
theorem outByte_zero_addressPayload (net : Network) (x y : Elem) :
    outByte (outOf (addressPayload Config.sha256 Config.ripemd160 net.byte (secBytes x y))) 0 = net.byte := by
  rw [outByte_eq_getD, outOf_addressPayload_toList]
  rfl

/-- OUT is 0 beyond an address payload (10_state.md R35). -/
theorem zeroFrom_addressPayload (b : Byte) (x y : Elem) :
    zeroFrom (outOf (addressPayload Config.sha256 Config.ripemd160 b (secBytes x y))) 25 = true := by
  rw [zeroFrom, outOf_toList _ (by simp), List.drop_left' (addressPayload_length ..), addressPayload_length]
  rfl

theorem outOk_writeOut_addressPayload (s : State) (net : Network) (x y : Elem) :
    (s.writeOut (addressPayload Config.sha256 Config.ripemd160 net.byte (secBytes x y))).outOk = true := by
  have hnet : net.byte = Config.mainnetByte ∨ net.byte = Config.testnetByte := by
    cases net with
    | mainnet => exact .inl rfl
    | testnet => exact .inr rfl
  simp only [State.outOk, writeOut_out, writeOut_outlen, addressPayload_length, zeroFrom_addressPayload,
    outByte_zero_addressPayload, Bool.or_eq_true, Bool.and_eq_true, beq_iff_eq]
  exact .inl (.inr ⟨⟨rfl, trivial⟩, hnet⟩)

/-- PSER and ADDR alone write OUT, and what they write is in order. -/
theorem outOk_of_effect (h : Effect s u i) (hs : s.outOk = true) : u.outOk = true := by
  cases i with
  | pser ra =>
    obtain ⟨x, y, rfl⟩ := h
    exact outOk_writeOut_secBytes s x y
  | addr ra net =>
    obtain ⟨x, y, rfl⟩ := h
    exact outOk_writeOut_addressPayload s net x y
  | fst ra =>
    obtain ⟨e, -, rfl⟩ := h
    exact hs
  | pdbl rd ra =>
    obtain ⟨x, y, rfl⟩ := h
    exact hs
  | _ =>
    obtain ⟨v, rfl⟩ := h
    exact hs

/-- FST alone writes DOUT, with a value below P. -/
theorem doutOk_of_effect (h : Effect s u i) (hs : s.doutOk = true) : u.doutOk = true := by
  cases i with
  | fst ra =>
    obtain ⟨e, -, rfl⟩ := h
    rw [State.doutOk, writeDout_dout, residue_ofNat_toNat]
    exact decide_eq_true e.value.isLt
  | pdbl _ _ | pser _ | addr _ _ =>
    obtain ⟨x, y, rfl⟩ := h
    exact hs
  | _ =>
    obtain ⟨v, rfl⟩ := h
    exact hs

/-! ### The safe states -/

theorem inv_errorCompletion (hs : s.Inv) (c : Cause) (cmd : Word) : (s.errorCompletion c cmd).Inv :=
  ⟨errorFieldsOk_errorCompletion s c cmd, hs.2⟩

/-- A command that was pending and completes leaves a safe state safe. -/
theorem inv_emptyPend_of_effect (hs : s.Inv) (hp : s.pend = some p) (h : Effect s u i) : u.emptyPend.Inv := by
  obtain ⟨hfields, hout, hdout⟩ := hs
  obtain ⟨herr, hcause, hinfo⟩ := errorFields_of_effect h
  have hout' : u.outOk = true := outOk_of_effect h hout
  have hdout' : u.doutOk = true := doutOk_of_effect h hdout
  exact ⟨errorFieldsOk_congr hfields (no_err_of_pending hfields hp) herr hcause hinfo, hout', hdout'⟩

theorem inv_engineStep (hs : s.Inv) (h : engineStep s = .next t) : t.Inv := by
  obtain ⟨p, hp, ⟨i, hd, hexec⟩ | ⟨-, rfl⟩⟩ := engineStep_cases h
  · rcases exec_cases (decode_wf hd) hp hexec with ⟨c, -, rfl⟩ | ⟨u, heffect, rfl⟩
    · exact inv_errorCompletion hs c p.cmd
    · exact inv_emptyPend_of_effect hs hp heffect
  · exact inv_errorCompletion hs .illegalCommand p.cmd

/-- Settles O53, by the kind of step: the ENGINE's is above; the others leave OUT and DOUT, or reset them. -/
theorem stepKeepsTheSafeStates : Obligations.StepKeepsTheSafeStates := by
  unfold Obligations.StepKeepsTheSafeStates
  intro s t hs hstep
  cases nextState_of_step hstep with
  | engine p t hp hengine => exact inv_engineStep (s := { s with turns := s.turns.tail }) hs hengine
  | accepted w hidle hnoerr =>
    obtain ⟨hfields, hdata⟩ := hs
    exact ⟨errorFieldsOk_congr hfields hnoerr rfl rfl rfl, hdata⟩
  | cleared turn hfirst hclear => exact ⟨rfl, hs.2⟩
  | reset turn hfirst hreset => exact resetStateIsSafe.1
  | _ => exact hs

/-! ### The word in ERRINFO (60_exceptions.md R200) -/

/-- The statement's table of R200 is the causes that a command's meaning may raise. -/
theorem raisable_eq (i : Instr) : raisable i = (mayRaise i).map Cause.code := by
  cases i <;> rfl

theorem errinfoFits_of_command (hd : decode s.errinfo = .ok i) (hc : s.errcause ∈ raisable i) : ErrinfoFits s := by
  intro _
  rw [hd]
  exact hc

theorem errinfoFits_of_illegal {r : Illegal} (hd : decode s.errinfo = .error r) (hc : s.errcause = 1) : ErrinfoFits s := by
  intro _
  rw [hd]
  exact hc

theorem errinfoFits_of_no_err (h : s.err = false) : ErrinfoFits s := fun herr => by simp [h] at herr

/-- The property depends on the error fields alone. -/
theorem errinfoFits_congr (hs : ErrinfoFits s) (herr : t.err = s.err) (hcause : t.errcause = s.errcause)
    (hinfo : t.errinfo = s.errinfo) : ErrinfoFits t := by
  unfold ErrinfoFits at hs ⊢
  rwa [herr, hcause, hinfo]

/-- The ENGINE latches a cause of the word it executed, or leaves the error fields. -/
theorem errinfoFits_engineStep (hs : ErrinfoFits s) (h : engineStep s = .next t) : ErrinfoFits t := by
  obtain ⟨p, hp, ⟨i, hd, hexec⟩ | ⟨⟨r, hd⟩, rfl⟩⟩ := engineStep_cases h
  · rcases exec_cases (decode_wf hd) hp hexec with ⟨c, hc, rfl⟩ | ⟨u, heffect, rfl⟩
    · exact errinfoFits_of_command hd (raisable_eq i ▸ List.mem_map_of_mem hc)
    · obtain ⟨herr, hcause, hinfo⟩ := errorFields_of_effect heffect
      exact errinfoFits_congr hs herr hcause hinfo
  · exact errinfoFits_of_illegal hd rfl

/-- Settles O54, by the kind of step: only the ENGINE's, a clear and a reset write the error fields. -/
theorem errinfoAlwaysFitsTheCause : Obligations.ErrinfoAlwaysFitsTheCause := by
  unfold Obligations.ErrinfoAlwaysFitsTheCause
  intro s t hs hstep
  cases nextState_of_step hstep with
  | engine p t hp hengine => exact errinfoFits_engineStep (s := { s with turns := s.turns.tail }) hs hengine
  | cleared turn hfirst hclear => exact errinfoFits_of_no_err rfl
  | reset turn hfirst hreset => exact errinfoFits_of_no_err rfl
  | _ => exact hs

/-! ### Executions from reset -/

/-- Every state of an execution from reset is safe, since a turn that the environment adds changes no register. -/
theorem inv_of_reachable (h : Reachable s) : s.Inv := by
  induction h with
  | reset => exact resetStateIsSafe.1
  | turn s t _ ih => exact ih
  | step s s' _ hstep ih => exact stepKeepsTheSafeStates s s' ih hstep

/-- Settles O57: a safe state with a command pending has no error latched. -/
theorem busyAndErrNeverTogether : Obligations.BusyAndErrNeverTogether := by
  unfold Obligations.BusyAndErrNeverTogether
  rintro s hreach ⟨hbusy, herr⟩
  obtain ⟨p, hp⟩ := Option.isSome_iff_exists.1 hbusy
  have hnoerr := no_err_of_pending (inv_of_reachable hreach).1 hp
  simp [herr] at hnoerr

end Sys2Proof.Machine
end

section
/-! SUPPORT. The curve y² = x³ + 7 over the integers mod the prime P: doubling keeps it, no point of it has Y = 0 (41_point_doubler.md
R145, R146), and the two encodings of X (42_point_serializer.md R160). -/

namespace Sys2Proof.Machine

open Sys2Proof.Terms

variable {s : State} {p : Pending} {rd ra : Reg} {x y : Elem} {v w : Residue}

/-! ### Residues as elements of the field ZMod P -/

/-- Equal remainders are equal field elements. -/
theorem mod_P_eq_iff (m n : Nat) : m % Config.P = n % Config.P ↔ (m : ZMod Config.P) = n :=
  (ZMod.natCast_eq_natCast_iff m n Config.P).symm

theorem mod_P_eq_one_iff (m : Nat) : m % Config.P = 1 ↔ (m : ZMod Config.P) = 1 := by
  have h := mod_P_eq_iff m 1
  rwa [Nat.mod_eq_of_lt one_lt_P, Nat.cast_one] at h

theorem curveEquation_iff (m n : Nat) :
    CurveEquation m n ↔ (n : ZMod Config.P) ^ 2 = (m : ZMod Config.P) ^ 3 + 7 := by
  rw [CurveEquation, mod_P_eq_iff]
  push_cast
  rw [pow_two, pow_three']

/-! ### Doubling (R141, R145) -/

theorem cast_times (v w : Residue) : ((times v w).val : ZMod Config.P) = v.val * w.val := by
  rw [times_val, ZMod.natCast_mod, Nat.cast_mul]

theorem cast_twice (v : Residue) : ((twice v).val : ZMod Config.P) = 2 * v.val := by
  rw [twice_val, ZMod.natCast_mod]
  push_cast
  rfl

theorem cast_thrice (v : Residue) : ((thrice v).val : ZMod Config.P) = 3 * v.val := by
  rw [thrice_val, ZMod.natCast_mod]
  push_cast
  rfl

theorem cast_minus (v w : Residue) : ((minus v w).val : ZMod Config.P) = v.val - w.val := by
  have h := congrArg (Int.cast : Int → ZMod Config.P) (minus_val_int v w)
  rw [ZMod.intCast_mod] at h
  exact_mod_cast h

theorem cast_mul_inverse (hv : v.val ≠ 0) : (v.val : ZMod Config.P) * ((inverse v).val : ZMod Config.P) = 1 := by
  exact_mod_cast (mod_P_eq_one_iff _).1 (mul_inverse v hv)

/-- The slope times 2·Y is 3·X². -/
theorem cast_tangentSlope (hw : w.val ≠ 0) :
    ((tangentSlope v w).val : ZMod Config.P) * (2 * w.val) = 3 * (v.val : ZMod Config.P) ^ 2 := by
  have hinv := cast_mul_inverse (v := twice w) (mt (twice_eq_zero_iff w).1 hw)
  rw [tangentSlope, cast_times, cast_thrice, cast_times, ← cast_twice]
  linear_combination 3 * (v.val : ZMod Config.P) ^ 2 * hinv

theorem cast_doubleX (v w : Residue) :
    ((doubleX v w).val : ZMod Config.P) = ((tangentSlope v w).val : ZMod Config.P) ^ 2 - 2 * v.val := by
  rw [doubleX, cast_minus, cast_times, cast_twice, pow_two]

theorem cast_doubleY (v w : Residue) :
    ((doubleY v w).val : ZMod Config.P)
      = (tangentSlope v w).val * ((v.val : ZMod Config.P) - (doubleX v w).val) - w.val := by
  rw [doubleY, cast_minus, cast_times, cast_minus]

/-- The tangent meets the curve again at the reflection of the doubled point: general algebra in any commutative ring. -/
theorem tangent_third_point {R : Type*} [CommRing R] {x y c x2 y2 : R} (hcurve : y ^ 2 = x ^ 3 + 7)
    (hslope : c * (2 * y) = 3 * x ^ 2) (hx2 : x2 = c ^ 2 - 2 * x) (hy2 : y2 = c * (x - x2) - y) : y2 ^ 2 = x2 ^ 3 + 7 := by
  subst hx2 hy2
  linear_combination hcurve + (c ^ 2 - 3 * x) * hslope

/-- The doubled point is on the curve (41_point_doubler.md R145). -/
theorem curveEquation_double (hcurve : CurveEquation v.val w.val) (hw : w.val ≠ 0) :
    CurveEquation (doubleX v w).val (doubleY v w).val := by
  rw [curveEquation_iff] at hcurve ⊢
  exact tangent_third_point hcurve (cast_tangentSlope hw) (cast_doubleX v w) (cast_doubleY v w)

/-- A pair of registers just written by PDBL reads back (10_state.md R25: rd and rd + 1 are two registers). -/
theorem writeFe_pair_reads (s : State) (rd : Reg) (a b : Elem) :
    ((s.writeFe rd a).writeFe (rd + 1) b).fe[rd.val] = some a ∧ ((s.writeFe rd a).writeFe (rd + 1) b).fe[(rd + 1).val] = some b := by
  have hne : rd + 1 ≠ rd := by simp
  exact ⟨(writeFe_getElem_ne _ b hne).trans (writeFe_getElem_same s rd a), writeFe_getElem_same _ (rd + 1) b⟩

/-- PONC of an on-curve pair of tag 0 sets ONC. -/
theorem exec_ponc_onCurve (hp : s.pend = some p) (hra : ra.val % 2 = 0) (hx : s.fe[ra.val] = some x)
    (hy : s.fe[(ra + 1).val] = some y) (hx0 : x.tag = 0) (hy0 : y.tag = 0) (hcurve : CurveEquation x.value.val y.value.val) :
    ∃ u, exec (.ponc ra) s = .next u ∧ u.onc = true := by
  obtain ⟨v, hv, hon⟩ := onCurve_decides_curveEquation hx0 hy0
  exact ⟨_, execPonc_of_pt v hp (pt_ok hra hx hy (hx0.trans hy0.symm)) hon, hv.2 hcurve⟩

/-- Settles O23: PDBL writes the doubled pair, which is on the curve, and PONC decides just that. -/
theorem doublingStaysOnTheCurve : Obligations.DoublingStaysOnTheCurve := by
  unfold Obligations.DoublingStaysOnTheCurve
  intro s p q rd ra x y hp hrd hra hx hy htag hcurve hy0
  have hdouble := curveEquation_double hcurve hy0
  obtain ⟨hx2, hy2⟩ := writeFe_pair_reads s rd ⟨doubleX x.value y.value, x.tag⟩ ⟨doubleY x.value y.value, x.tag⟩
  refine ⟨_, _, _, execPdbl_ok hp hrd hra hx hy htag hy0, hx2, hy2, hdouble, fun hx0 => ?_⟩
  exact exec_ponc_onCurve (p := q) rfl hrd hx2 hy2 hx0 hx0 hdouble

/-! ### No point with Y = 0 (R146) -/

/-- −7 to the power (P − 1)/3 is not 1 mod P, so −7 is no cube. -/
theorem powMod_neg_seven : powMod Config.P (Config.P - 7) ((Config.P - 1) / 3) ≠ 1 := by decide +kernel

theorem three_dvd_P_pred : (Config.P - 1) / 3 * 3 = Config.P - 1 := by decide

/-- The same in the field, where P − 7 is −7. -/
theorem neg_seven_pow_ne_one : (-7 : ZMod Config.P) ^ ((Config.P - 1) / 3) ≠ 1 := by
  have hseven : 7 ≤ Config.P := by decide
  have hexp : (Config.P - 1) / 3 < 2 ^ 256 := by decide
  have hneg : ((Config.P - 7 : Nat) : ZMod Config.P) = -7 := by
    rw [Nat.cast_sub hseven, ZMod.natCast_self]
    simp
  intro hone
  refine powMod_neg_seven ?_
  rw [powMod_eq _ _ _ one_lt_P hexp, mod_P_eq_one_iff, Nat.cast_pow, hneg, hone]

theorem seven_ne_zero : (7 : ZMod Config.P) ≠ 0 := by
  have hdvd : ¬ Config.P ∣ 7 := Nat.not_dvd_of_pos_of_lt (by decide) (by decide)
  exact_mod_cast mt (ZMod.natCast_eq_zero_iff 7 Config.P).1 hdvd

/-- No field element has −7 as its cube, by Fermat's little theorem. -/
theorem cube_add_seven_ne_zero (z : ZMod Config.P) : z ^ 3 + 7 ≠ 0 := by
  have : Fact Config.P.Prime := ⟨P_prime⟩
  intro h
  have hcube : z ^ 3 = -7 := eq_neg_of_add_eq_zero_left h
  have hz : z ≠ 0 := by
    rintro rfl
    exact seven_ne_zero (by simpa using h)
  refine neg_seven_pow_ne_one ?_
  rw [← hcube, ← pow_mul, mul_comm, three_dvd_P_pred, ZMod.pow_card_sub_one_eq_one hz]

/-- No point of the curve has Y = 0. -/
theorem y_ne_zero_of_curveEquation (hcurve : CurveEquation v.val w.val) : w.val ≠ 0 := by
  intro hw
  rw [curveEquation_iff, hw] at hcurve
  exact cube_add_seven_ne_zero v.val (by rw [← hcurve]; simp)

/-- Settles O24: on a curve pair of one tag PDBL completes and ERR stays 0, and on one of two tags it ends with another cause. -/
theorem noCurvePointHasYZero : Obligations.NoCurvePointHasYZero := by
  unfold Obligations.NoCurvePointHasYZero
  refine ⟨fun x y => y_ne_zero_of_curveEquation, fun s p rd ra x y hp herr hrd hra hx hy hlatched hcurve => ?_⟩
  by_cases htag : x.tag = y.tag
  · have hok := execPdbl_ok hp hrd hra hx hy htag (y_ne_zero_of_curveEquation hcurve)
    have hsame := congrArg State.err (next_inj (hok.symm.trans hlatched))
    simp [latched, herr] at hsame
  · have hmismatch := execPdbl_error hp hrd (pt_mismatch hra hx hy htag)
    have hsame := congrArg State.errcause (next_inj (hmismatch.symm.trans hlatched))
    simp [latched, Cause.code] at hsame

/-! ### The negated point (42_point_serializer.md R160) -/

/-- P is odd, so Y and P − Y have different parities. -/
theorem parity_of_negated {m n : Nat} (hm : m < Config.P) (h : n = Config.P - m) : n % 2 = 0 ↔ ¬ m % 2 = 0 := by
  have hodd := P_odd
  omega

/-- OUT[0] after PSER is the byte of Y's parity. -/
theorem outOf_secBytes_zero (x y : Elem) :
    (outOf (secBytes x y))[0] = if y.value.val % 2 = 0 then 0x02#8 else 0x03#8 := by
  rw [outOf, Vector.getElem_ofFn]
  rfl

/-- OUT[1] to OUT[32] after PSER do not depend on Y. -/
theorem outOf_secBytes_tail (x y z : Elem) : (outOf (secBytes x y)).toList.tail = (outOf (secBytes x z)).toList.tail := by
  rw [outOf_secBytes_toList, outOf_secBytes_toList]
  rfl

/-- Settles O26: byte 0 goes by the parity of Y, which negation changes, and the other bytes by X. -/
theorem negatedPointGetsTheOtherPrefix : Obligations.NegatedPointGetsTheOtherPrefix := by
  unfold Obligations.NegatedPointGetsTheOtherPrefix
  intro s₁ s₂ p₁ p₂ ra x y z hp₁ hp₂ hra htagy htagz hy0 hz hx₁ hy₁ hx₂ hz₂
  refine ⟨_, _, execPser_ok hp₁ hra hx₁ hy₁ htagy, execPser_ok hp₂ hra hx₂ hz₂ htagz, ?_, outOf_secBytes_tail x y z⟩
  have hparity := parity_of_negated y.value.isLt hz
  simp only [outOf_secBytes_zero]
  by_cases hy : y.value.val % 2 = 0
  · exact .inl ⟨if_pos hy, if_neg fun hz => hparity.1 hz hy⟩
  · exact .inr ⟨if_neg hy, if_pos (hparity.2 hy)⟩

end Sys2Proof.Machine
end

section
/-! SUPPORT. A command run at two states that agree on its sources: one cause at both, or one result in its destinations
(10_state.md R23, 43_address_derivation.md R176), and the statement of it settled by going through the meanings' rules side by side. -/

namespace Sys2Proof.Machine

open Sys2Proof.Terms

variable {s₁ s₂ u₁ u₂ : State} {i : Instr} {p : Pending} {r q : Reg}

/-- The two states hold one result in all destinations of i. -/
def SameResult (i : Instr) (u₁ u₂ : State) : Prop :=
  (∀ r : Reg, isDestination r i = true → u₁.fe[r.val] = u₂.fe[r.val]) ∧
  (writesDout i → u₁.dout = u₂.dout ∧ u₁.dtag = u₂.dtag) ∧ (writesEq i → u₁.eq = u₂.eq) ∧
  (writesOnc i → u₁.onc = u₂.onc) ∧ (writesOut i → u₁.out = u₂.out ∧ u₁.outlen = u₂.outlen)

/-- Two runs of a rule raise one cause, or complete with one result. -/
def SameEnd (i : Instr) (x₁ x₂ : Result State) : Prop :=
  (∃ c, x₁ = .error c ∧ x₂ = .error c) ∨ ∃ u₁ u₂, x₁ = .ok u₁ ∧ x₂ = .ok u₂ ∧ SameResult i u₁ u₂

/-! ### Rules side by side -/

theorem sameEnd_ok (h : SameResult i u₁ u₂) : SameEnd i (.ok u₁) (.ok u₂) := .inr ⟨u₁, u₂, rfl, rfl, h⟩

/-- Two rules that go on from one value end alike when they do so for every value. -/
theorem sameEnd_bind {α : Type} (x : Result α) {f₁ f₂ : α → Result State} (h : ∀ a, SameEnd i (f₁ a) (f₂ a)) :
    SameEnd i (x >>= f₁) (x >>= f₂) := by
  cases x with
  | error c => exact .inl ⟨c, rfl, rfl⟩
  | ok a => exact h a

/-- A completion answers two ends alike: one latched cause, or one result with PEND emptied. -/
theorem complete_of_sameEnd {rule₁ rule₂ : Pending → Result State} {t₁ : State} (hp₁ : s₁.pend = some p)
    (hp₂ : s₂.pend = some p) (h : SameEnd i (rule₁ p) (rule₂ p)) (ht₁ : s₁.complete rule₁ = .next t₁) :
    ∃ t₂, s₂.complete rule₂ = .next t₂ ∧
      ((∃ c, t₁ = latched s₁ c p.cmd ∧ t₂ = latched s₂ c p.cmd) ∨ SameResult i t₁ t₂) := by
  rcases h with ⟨c, hr₁, hr₂⟩ | ⟨u₁, u₂, hr₁, hr₂, hsame⟩
  · have ht : t₁ = latched s₁ c.code p.cmd := next_inj ((complete_error s₁ p c rule₁ hp₁ hr₁).symm.trans ht₁)
    exact ⟨_, complete_error s₂ p c rule₂ hp₂ hr₂, .inl ⟨c.code, ht, rfl⟩⟩
  · obtain rfl : t₁ = u₁.emptyPend := next_inj ((complete_ok s₁ u₁ p rule₁ hp₁ hr₁).symm.trans ht₁)
    exact ⟨_, complete_ok s₂ u₂ p rule₂ hp₂ hr₂, .inr hsame⟩

/-! ### Sources read alike -/

theorem src_congr (h : s₁.fe[r.val] = s₂.fe[r.val]) : src s₂ r = src s₁ r := by
  simp only [src, readFe_eq, h]

theorem src2_congr (h : ∀ k ∈ [r, q], s₁.fe[k.val] = s₂.fe[k.val]) : src2 s₂ r q = src2 s₁ r q := by
  simp only [src2, src_congr (h r (by simp)), src_congr (h q (by simp))]

theorem pt_congr (h : ∀ k ∈ [r, r + 1], s₁.fe[k.val] = s₂.fe[k.val]) : pt s₂ r = pt s₁ r := by
  simp only [pt, src_pairY, src_congr (h r (by simp)), src_congr (h (r + 1) (by simp))]

/-! ### Destinations written alike -/

/-- The one FE register that a command of the field writes (40_field_arithmetic.md R103 to R110). -/
def feDestination : Instr → Option Reg
  | .fld rd _ => some rd
  | .fldc rd _ => some rd
  | .fadd rd _ _ => some rd
  | .fsub rd _ _ => some rd
  | .fmul rd _ _ => some rd
  | .fdiv rd _ _ => some rd
  | .finv rd _ => some rd
  | .fst _ => none
  | .feq _ _ => none
  | .ponc _ => none
  | .pdbl _ _ => none
  | .pser _ => none
  | .addr _ _ => none

theorem isDestination_of_feDestination {rd : Reg} (h : feDestination i = some rd) (hr : isDestination r i = true) : r = rd := by
  cases i with
  | fld | fldc | fadd | fsub | fmul | fdiv | finv =>
    cases h
    exact beq_iff_eq.1 hr
  | _ => cases h

theorem writesFe_alone {rd : Reg} (h : feDestination i = some rd) :
    ¬ writesDout i ∧ ¬ writesEq i ∧ ¬ writesOnc i ∧ ¬ writesOut i := by
  cases i with
  | fld | fldc | fadd | fsub | fmul | fdiv | finv => simp [writesDout, writesEq, writesOnc, writesOut]
  | _ => cases h

theorem sameResult_writeFe {rd : Reg} (h : feDestination i = some rd) (e : Elem) :
    SameResult i (s₁.writeFe rd e) (s₂.writeFe rd e) := by
  obtain ⟨hdout, heq, honc, hout⟩ := writesFe_alone h
  refine ⟨fun r hr => ?_, fun hw => absurd hw hdout, fun hw => absurd hw heq, fun hw => absurd hw honc,
    fun hw => absurd hw hout⟩
  obtain rfl := isDestination_of_feDestination h hr
  rw [writeFe_getElem_same, writeFe_getElem_same]

theorem sameResult_pdbl (rd ra : Reg) (a b : Elem) :
    SameResult (.pdbl rd ra) ((s₁.writeFe rd a).writeFe (pairY rd) b) ((s₂.writeFe rd a).writeFe (pairY rd) b) := by
  rw [pairY_eq]
  have hreads (r : Reg) (hr : isDestination r (.pdbl rd ra) = true) :
      ((s₁.writeFe rd a).writeFe (rd + 1) b).fe[r.val] = ((s₂.writeFe rd a).writeFe (rd + 1) b).fe[r.val] := by
    obtain ⟨hx₁, hy₁⟩ := writeFe_pair_reads s₁ rd a b
    obtain ⟨hx₂, hy₂⟩ := writeFe_pair_reads s₂ rd a b
    rcases (by simpa [isDestination] using hr : r = rd ∨ r = rd + 1) with rfl | rfl
    · exact hx₁.trans hx₂.symm
    · exact hy₁.trans hy₂.symm
  exact ⟨hreads, by simp [writesDout, writesEq, writesOnc, writesOut]⟩

/-- FADD, FSUB, FMUL and FDIV read both sources, then compute, then write. -/
theorem sameEnd_binaryField {op : Elem → Elem → Result Elem} {rd ra rb : Reg} (hi : feDestination i = some rd)
    (hsrc : ∀ k ∈ [ra, rb], s₁.fe[k.val] = s₂.fe[k.val]) :
    SameEnd i (src2 s₁ ra rb >>= fun x => op x.1 x.2 >>= fun e => .ok (s₁.writeFe rd e))
      (src2 s₂ ra rb >>= fun x => op x.1 x.2 >>= fun e => .ok (s₂.writeFe rd e)) := by
  rw [src2_congr hsrc]
  exact sameEnd_bind _ fun x => sameEnd_bind _ fun e => sameEnd_ok (sameResult_writeFe hi e)

/-- Settles O30: the rules read the same sources and then write the same values. -/
theorem resultsDependOnlyOnTheSources : Obligations.ResultsDependOnlyOnTheSources := by
  unfold Obligations.ResultsDependOnlyOnTheSources
  intro i s₁ s₂ t₁ p _ hp₁ hp₂ hsrc ht₁
  cases i with
  | fld rd tag =>
    exact complete_of_sameEnd (rule₁ := fun p => .ok (s₁.writeFe rd ⟨residue p.din.toNat, tag⟩))
      (rule₂ := fun p => .ok (s₂.writeFe rd ⟨residue p.din.toNat, tag⟩)) hp₁ hp₂
      (sameEnd_ok (sameResult_writeFe rfl _)) ht₁
  | fldc rd k =>
    exact complete_of_sameEnd (rule₁ := fun _ => .ok (s₁.writeFe rd (constOf k)))
      (rule₂ := fun _ => .ok (s₂.writeFe rd (constOf k))) hp₁ hp₂ (sameEnd_ok (sameResult_writeFe rfl _)) ht₁
  | fst ra =>
    refine complete_of_sameEnd hp₁ hp₂ ?_ ht₁
    rw [src_congr (hsrc ra (by simp [sources]))]
    exact sameEnd_bind _ fun _ => sameEnd_ok (by simp [SameResult, isDestination, writesEq, writesOnc, writesOut])
  | fadd rd ra rb | fsub rd ra rb | fmul rd ra rb | fdiv rd ra rb =>
    exact complete_of_sameEnd hp₁ hp₂ (sameEnd_binaryField rfl hsrc) ht₁
  | finv rd rb =>
    refine complete_of_sameEnd hp₁ hp₂ ?_ ht₁
    rw [src_congr (hsrc rb (by simp [sources]))]
    exact sameEnd_bind _ fun b => sameEnd_bind _ fun _ => sameEnd_ok (sameResult_writeFe rfl _)
  | feq ra rb =>
    refine complete_of_sameEnd hp₁ hp₂ ?_ ht₁
    rw [src2_congr hsrc]
    exact sameEnd_bind _ fun (_, _) => sameEnd_bind _ fun _ =>
      sameEnd_ok (by simp [SameResult, isDestination, writesDout, writesOnc, writesOut])
  | ponc ra =>
    refine complete_of_sameEnd hp₁ hp₂ ?_ ht₁
    rw [pt_congr hsrc]
    exact sameEnd_bind _ fun (_, _) => sameEnd_bind _ fun _ =>
      sameEnd_ok (by simp [SameResult, isDestination, writesDout, writesEq, writesOut])
  | pdbl rd ra =>
    refine complete_of_sameEnd hp₁ hp₂ ?_ ht₁
    rw [pt_congr hsrc]
    exact sameEnd_bind _ fun _ => sameEnd_bind _ fun (_, _) => sameEnd_bind _ fun (x2, y2) =>
      sameEnd_ok (sameResult_pdbl rd ra x2 y2)
  | pser ra =>
    refine complete_of_sameEnd hp₁ hp₂ ?_ ht₁
    rw [pt_congr hsrc]
    exact sameEnd_bind _ fun (_, _) => sameEnd_ok (by simp [SameResult, isDestination, writesDout, writesEq, writesOnc])
  | addr ra net =>
    refine complete_of_sameEnd hp₁ hp₂ ?_ ht₁
    rw [pt_congr hsrc]
    exact sameEnd_bind _ fun (_, _) => sameEnd_ok (by simp [SameResult, isDestination, writesDout, writesEq, writesOnc])

end Sys2Proof.Machine
end
